-- ==== Sys2Proof/Word.lean ====
section
/-! DEFINITION. The value types of the block (spec/00_scope.md R10) and the raw command packet (spec/30_encoding.md
R70). There is no signed value and no sign extension anywhere in the block. -/

namespace Sys2Proof

/-- R10 `u8`: a buffer element, a byte operand, a table index. -/
abbrev Byte := BitVec 8

/-- R10 `u32`: a table entry, the checksum state, a register, one word of a packet. -/
abbrev Word := BitVec 32

/-- R10 `zext_32(b)`. -/
abbrev Byte.zext (b : Byte) : Word := b.setWidth 32

/-- R70: every command is one packet of 96 bits, three 32-bit words issued by the host as a unit. A packet is not
stored in `MEM` and has no address. -/
structure Packet where
  word0 : Word
  arg0 : Word
  arg1 : Word
  deriving DecidableEq, Repr

end Sys2Proof
end

