-- ==== Sys2Proof/Syntax.lean ====
section
/-! DEFINITION. The thirteen commands of the block (spec/30_encoding.md R74, R75; one constructor per row of
spec/opcode_table.json). Operand order is the assembler's (R80): the first operand is always the field `t1`. -/

namespace Sys2Proof

/-- R10 `slot`: the number of a table slot, `T0` to `T3` (spec/10_state.md R20, R21). -/
abbrev Slot := Fin 4

/-- R21: `TREF`, the alias of `T0` (by convention the reference base table). -/
abbrev Slot.tref : Slot := 0

/-- R21: `TFAST`, the alias of `T1` (by convention the doubling base table). -/
abbrev Slot.tfast : Slot := 1

/-- R21: `RSLOW`, the alias of `T2` (by convention the brute-force rolling table). -/
abbrev Slot.rslow : Slot := 2

/-- R21: `RFAST`, the alias of `T3` (by convention the fast rolling table). -/
abbrev Slot.rfast : Slot := 3

/-- R74: the commands with their operands. Slots, bytes and words range over exactly the values their fields can
hold, so every term is a command the block can be handed; R78's refusals at execution come after decode. -/
inductive Instr where
  /-- `NOP` (R142). -/
  | nop
  /-- `BLDREF td` (R101): build the bitwise reference table into slot `td`. -/
  | bldref (td : Slot)
  /-- `BLDDBL td, seed` (R103): build the doubling table of `seed` into slot `td`. -/
  | blddbl (td : Slot) (seed : Word)
  /-- `BLDRSLOW td, ts` (R120): build the brute-force rolling table of base table `ts` into `td`. -/
  | bldrslow (td ts : Slot)
  /-- `BLDRFAST td, ts` (R121): build the doubling table seeded by entry 128 of `ts` into `td`. -/
  | bldrfast (td ts : Slot)
  /-- `CINIT` (R114): start a checksum. -/
  | cinit
  /-- `CUPD ts, b` (R115): fold one byte with table `ts`. -/
  | cupd (ts : Slot) (b : Byte)
  /-- `CFIN` (R116): finish the checksum into `RES0`. -/
  | cfin
  /-- `CSUM ts, addr, len` (R117): checksum a buffer with table `ts`. -/
  | csum (ts : Slot) (addr len : Word)
  /-- `CROLL tb, tr, bin, bout` (R130): one rolling step, byte `bin` enters and `bout` leaves. -/
  | croll (tb tr : Slot) (bin bout : Byte)
  /-- `CMPTBL ta, tb` (R140): compare two tables entry by entry. -/
  | cmptbl (ta tb : Slot)
  /-- `ROLLVFY tb, tr, addr, n` (R131): verify `n + 1` windows of a buffer. -/
  | rollvfy (tb tr : Slot) (addr n : Word)
  /-- `RDTBL ts, idx` (R141): read one table entry into `RES0`. -/
  | rdtbl (ts : Slot) (idx : Byte)
  deriving DecidableEq, Repr

end Sys2Proof
end

