-- ==== Sys2Proof/Decode.lean ====
section
/-! DEFINITION. Decoding and encoding of command packets (spec/30_encoding.md). Decoding is total: every 96-bit packet
is exactly one command or is rejected with the reason of R77. The encoder is written from the same tables. -/

namespace Sys2Proof

/-- R72: the eight formats. -/
inductive Format where
  | n | t | ts | tt | tb | ttbb | tm | ttm
  deriving DecidableEq, Repr

/-- R72: the format uses the field `t1`. -/
def Format.usesT1 : Format → Bool
  | .n => false
  | .t | .ts | .tt | .tb | .ttbb | .tm | .ttm => true

/-- R72: the format uses the field `t2`. -/
def Format.usesT2 : Format → Bool
  | .tt | .ttbb | .ttm => true
  | .n | .t | .ts | .tb | .tm => false

/-- R72: the format uses the field `b1`. -/
def Format.usesB1 : Format → Bool
  | .tb | .ttbb => true
  | .n | .t | .ts | .tt | .tm | .ttm => false

/-- R72: the format uses the field `b2`. -/
def Format.usesB2 : Format → Bool
  | .ttbb => true
  | .n | .t | .ts | .tt | .tb | .tm | .ttm => false

/-- R72: the format uses the word `arg0`. -/
def Format.usesArg0 : Format → Bool
  | .ts | .tm | .ttm => true
  | .n | .t | .tt | .tb | .ttbb => false

/-- R72: the format uses the word `arg1`. -/
def Format.usesArg1 : Format → Bool
  | .tm | .ttm => true
  | .n | .t | .ts | .tt | .tb | .ttbb => false

/-- R75: the thirteen assigned opcodes, named by their mnemonics. -/
inductive Opcode where
  | nop | bldref | blddbl | bldrslow | bldrfast | cinit | cupd | cfin | csum | croll | cmptbl | rollvfy | rdtbl
  deriving DecidableEq, Repr

/-- R75, column "opcode". -/
def Opcode.code : Opcode → Byte
  | .nop => 0x00
  | .bldref => 0x01
  | .blddbl => 0x02
  | .bldrslow => 0x03
  | .bldrfast => 0x04
  | .cinit => 0x10
  | .cupd => 0x11
  | .cfin => 0x12
  | .csum => 0x13
  | .croll => 0x14
  | .cmptbl => 0x20
  | .rollvfy => 0x21
  | .rdtbl => 0x30

/-- R75, column "format". -/
def Opcode.format : Opcode → Format
  | .nop | .cinit | .cfin => .n
  | .bldref => .t
  | .blddbl => .ts
  | .bldrslow | .bldrfast | .cmptbl => .tt
  | .cupd | .rdtbl => .tb
  | .csum => .tm
  | .croll => .ttbb
  | .rollvfy => .ttm

/-- R75, column `match` (on `word0`). -/
def Opcode.matchWord : Opcode → Word
  | .nop => 0x00000000
  | .bldref => 0x01000000
  | .blddbl => 0x02000000
  | .bldrslow => 0x03000000
  | .bldrfast => 0x04000000
  | .cinit => 0x10000000
  | .cupd => 0x11000000
  | .cfin => 0x12000000
  | .csum => 0x13000000
  | .croll => 0x14000000
  | .cmptbl => 0x20000000
  | .rollvfy => 0x21000000
  | .rdtbl => 0x30000000

/-- R75, column `mask` (on `word0`). -/
def Opcode.maskWord : Opcode → Word
  | .nop | .cinit | .cfin => 0xFFFFFFFF
  | .bldref | .blddbl | .csum => 0xFFFCFFFF
  | .bldrslow | .bldrfast | .cmptbl | .rollvfy => 0xFFF0FFFF
  | .cupd | .rdtbl => 0xFFFCFF00
  | .croll => 0xFFF00000

/-- All assigned opcodes, in the order of R75. -/
def Opcode.all : List Opcode :=
  [.nop, .bldref, .blddbl, .bldrslow, .bldrfast, .cinit, .cupd, .cfin, .csum, .croll, .cmptbl, .rollvfy, .rdtbl]

/-- R76: a decoder uses the full 8-bit opcode. -/
def Opcode.ofCode (b : Byte) : Option Opcode :=
  Opcode.all.find? (fun op => decide (op.code = b))

/-- R71: bits 31:24. -/
def fieldOpcode (w : Word) : Byte := w.extractLsb' 24 8

/-- R71: bits 23:20. -/
def fieldZero (w : Word) : BitVec 4 := w.extractLsb' 20 4

/-- R71: bits 19:18. -/
def fieldT2 (w : Word) : Slot := (w.extractLsb' 18 2).toFin

/-- R71: bits 17:16. -/
def fieldT1 (w : Word) : Slot := (w.extractLsb' 16 2).toFin

/-- R71: bits 15:8. -/
def fieldB2 (w : Word) : Byte := w.extractLsb' 8 8

/-- R71: bits 7:0. -/
def fieldB1 (w : Word) : Byte := w.extractLsb' 0 8

/-- R77 (c): every field of `word0` that the format does not use is zero. -/
def Format.fieldsClear (f : Format) (w : Word) : Bool :=
  (f.usesT2 || decide (fieldT2 w = 0)) && (f.usesT1 || decide (fieldT1 w = 0)) &&
    (f.usesB2 || decide (fieldB2 w = 0)) && (f.usesB1 || decide (fieldB1 w = 0))

/-- R77 (d): every argument word that the format does not use is zero. -/
def Format.argsClear (f : Format) (p : Packet) : Bool :=
  (f.usesArg0 || decide (p.arg0 = 0)) && (f.usesArg1 || decide (p.arg1 = 0))

/-- R77: why a packet is illegal. When several reasons hold, the first in this order is named (log entry 11); the
block's fault is the same for all of them (R174). -/
inductive DecodeError where
  /-- R77 (a): the opcode is not one of the thirteen. -/
  | unassignedOpcode
  /-- R77 (b): `word0[23:20]` is not zero. -/
  | zeroFieldSet
  /-- R77 (c): a field of `word0` the format does not use is not zero. -/
  | unusedFieldSet
  /-- R77 (d): an argument word the format does not use is not zero. -/
  | unusedArgumentSet
  deriving DecidableEq, Repr

/-- R74: which operand stands in which field, per command. -/
def assemble (op : Opcode) (p : Packet) : Instr :=
  match op with
  | .nop => .nop
  | .bldref => .bldref (fieldT1 p.word0)
  | .blddbl => .blddbl (fieldT1 p.word0) p.arg0
  | .bldrslow => .bldrslow (fieldT1 p.word0) (fieldT2 p.word0)
  | .bldrfast => .bldrfast (fieldT1 p.word0) (fieldT2 p.word0)
  | .cinit => .cinit
  | .cupd => .cupd (fieldT1 p.word0) (fieldB1 p.word0)
  | .cfin => .cfin
  | .csum => .csum (fieldT1 p.word0) p.arg0 p.arg1
  | .croll => .croll (fieldT1 p.word0) (fieldT2 p.word0) (fieldB1 p.word0) (fieldB2 p.word0)
  | .cmptbl => .cmptbl (fieldT1 p.word0) (fieldT2 p.word0)
  | .rollvfy => .rollvfy (fieldT1 p.word0) (fieldT2 p.word0) p.arg0 p.arg1
  | .rdtbl => .rdtbl (fieldT1 p.word0) (fieldB1 p.word0)

/-- R77: decoding, total on every packet. -/
def decode (p : Packet) : Except DecodeError Instr :=
  match Opcode.ofCode (fieldOpcode p.word0) with
  | none => .error .unassignedOpcode
  | some op =>
    if fieldZero p.word0 ≠ 0 then .error .zeroFieldSet
    else if op.format.fieldsClear p.word0 = false then .error .unusedFieldSet
    else if op.format.argsClear p = false then .error .unusedArgumentSet
    else .ok (assemble op p)

/-- The opcode of a command (R75). -/
def Instr.opcode : Instr → Opcode
  | .nop => .nop
  | .bldref _ => .bldref
  | .blddbl _ _ => .blddbl
  | .bldrslow _ _ => .bldrslow
  | .bldrfast _ _ => .bldrfast
  | .cinit => .cinit
  | .cupd _ _ => .cupd
  | .cfin => .cfin
  | .csum _ _ _ => .csum
  | .croll _ _ _ _ => .croll
  | .cmptbl _ _ => .cmptbl
  | .rollvfy _ _ _ _ => .rollvfy
  | .rdtbl _ _ => .rdtbl

/-- R71: the command word of an opcode and the four fields, most significant field first; bits 23:20 are zero. -/
def layoutWord0 (op : Opcode) (t2 t1 : Slot) (b2 b1 : Byte) : Word :=
  op.code ++ 0#4 ++ BitVec.ofFin (w := 2) t2 ++ BitVec.ofFin (w := 2) t1 ++ b2 ++ b1

/-- R74, R75: the packet of a command. -/
def encode : Instr → Packet
  | .nop => ⟨layoutWord0 .nop 0 0 0 0, 0, 0⟩
  | .bldref td => ⟨layoutWord0 .bldref 0 td 0 0, 0, 0⟩
  | .blddbl td seed => ⟨layoutWord0 .blddbl 0 td 0 0, seed, 0⟩
  | .bldrslow td ts => ⟨layoutWord0 .bldrslow ts td 0 0, 0, 0⟩
  | .bldrfast td ts => ⟨layoutWord0 .bldrfast ts td 0 0, 0, 0⟩
  | .cinit => ⟨layoutWord0 .cinit 0 0 0 0, 0, 0⟩
  | .cupd ts b => ⟨layoutWord0 .cupd 0 ts 0 b, 0, 0⟩
  | .cfin => ⟨layoutWord0 .cfin 0 0 0 0, 0, 0⟩
  | .csum ts addr len => ⟨layoutWord0 .csum 0 ts 0 0, addr, len⟩
  | .croll tb tr bin bout => ⟨layoutWord0 .croll tr tb bout bin, 0, 0⟩
  | .cmptbl ta tb => ⟨layoutWord0 .cmptbl tb ta 0 0, 0, 0⟩
  | .rollvfy tb tr addr n => ⟨layoutWord0 .rollvfy tr tb 0 0, addr, n⟩
  | .rdtbl ts idx => ⟨layoutWord0 .rdtbl 0 ts 0 idx, 0, 0⟩

/-- R81: the one pseudo-command, `BLDFAST td`, is `BLDDBL td, cfg.POLY`. -/
def bldfast (poly : Word) (td : Slot) : Instr := .blddbl td poly

/-- A packet from a number whose bit 0 is the least significant bit of `word0`; the bits of `arg0` and then `arg1`
count on from it, and the bits from `nbits` up are zero (log entry 12). -/
def packetOfTableWord (nbits w : Nat) : Packet :=
  let v := w % 2 ^ nbits
  ⟨BitVec.ofNat 32 v, BitVec.ofNat 32 (v >>> 32), BitVec.ofNat 32 (v >>> 64)⟩

/-- What the decoder reads from the `nbits` bits `w` of an opcode-table row. -/
def decodeTableWord (nbits w : Nat) : Option Instr :=
  (decode (packetOfTableWord nbits w)).toOption

end Sys2Proof
end

