-- ==== Sys2Proof/Config.lean ====
section
/-! DEFINITION. The configuration parameters of the block (spec/00_scope.md R5 to R9). They are fixed for a machine:
no command, no host action and no reset changes them (spec/10_state.md R32). The rules of the spec are stated for
every legal configuration, so the model keeps the configuration as plain data beside the state (log entry 1). -/

namespace Sys2Proof

/-- R5 to R8: the immutable configuration value `cfg` of the block. -/
structure Cfg where
  /-- R5 `cfg.POLY`: the reflected CRC polynomial. -/
  poly : Word
  /-- R6 `cfg.W`: the window size. -/
  w : Nat
  /-- R7 `cfg.INIT`: the initial value of the checksum state. -/
  init : Word
  /-- R8 `cfg.MEMSIZE`: the number of bytes of `MEM`. -/
  memSize : Nat
  deriving DecidableEq, Repr

/-- The configuration of this hardware: `cfg.POLY`, `cfg.W` and `cfg.INIT` as R5, R6 and R7 fix them.
DESIGN CHOICE (log entry 2): `cfg.MEMSIZE` is an open parameter of the spec (R8); the machine after reset carries
4096, the value the spec's own vectors are written for. -/
def Cfg.hw : Cfg := { poly := 0xEDB88320, w := 100, init := 0, memSize := 4096 }

end Sys2Proof
end

