-- ==== Sys2Proof/Machine/State.lean ====
section
/-! DEFINITION. The state of the block and of its host port, as plain data (spec/10_state.md; reset values
spec/70_reset_and_hazards.md R190), and the reasons a step can stop. -/

namespace Sys2Proof.Machine

/-- R20: the content of a table slot, exactly 256 entries of `u32` indexed by a `u8`. -/
abbrev Table := Vector Word 256

/-- R33: the buffer memory `MEM`, as (address, byte) pairs in canonical form (`Memory.wf`). -/
abbrev Memory := List Host.Cell

/-- R30: what the register `CAUSE` can hold; `Cause.code` gives the numbers. -/
inductive Cause where
  /-- 0 `NONE`: no fault. -/
  | none
  /-- 1 `TABLE_MISMATCH`: raised by `CMPTBL`. -/
  | tableMismatch
  /-- 2 `ROLL_MISMATCH`: raised by `ROLLVFY`. -/
  | rollMismatch
  /-- 3 `ILLEGAL_COMMAND`: raised at decode (R174). -/
  | illegalCommand
  /-- 4 `TABLE_INVALID`: a source slot is not built (R176). -/
  | tableInvalid
  /-- 5 `TABLE_LOCKED`: a destination slot is built already (R177). -/
  | tableLocked
  /-- 6 `ACC_INVALID`: `AV = 0` (R178). -/
  | accInvalid
  /-- 7 `RANGE`: the buffer does not lie inside `MEM` (R179). -/
  | range
  deriving DecidableEq, Repr

/-- R171: the arguments of `raise Fault(cause, info, v0, v1)`. -/
structure FaultReport where
  cause : Cause
  info : Word
  v0 : Word
  v1 : Word
  deriving DecidableEq, Repr

/-- spec/70_reset_and_hazards.md R198: everything the host can do to the block, one constructor per row of its
table. A program is a finite list of these (R199). -/
inductive HostAction where
  /-- The reset action (R191). -/
  | reset
  /-- Write the byte `v` at `MEM[a]` (R56). -/
  | writeMem (a : Nat) (v : Byte)
  /-- Read the byte `MEM[a]` (R56). -/
  | readMem (a : Nat)
  /-- Issue a command packet (R70, R196). -/
  | issue (p : Packet)
  /-- Read the register numbered `n` (R37). -/
  | readReg (n : Word)
  /-- Observe the output signal `fault_o` (R180). -/
  | observeFault
  deriving DecidableEq, Repr

/-- R198, column "host gets back". -/
inductive Reply where
  /-- The byte a memory read returned. -/
  | byte (b : Byte)
  /-- The 32-bit value a register read returned. -/
  | word (v : Word)
  /-- The level of `fault_o`. -/
  | level (b : Bool)
  deriving DecidableEq, Repr

/-- The machine: the block's state (R16, R20 to R35), its configuration, and the host's side of the ports. -/
structure State where
  /-- R5 to R8, R32: the configuration, constant (log entry 1). -/
  cfg : Cfg
  /-- R20, R22: the table slots `TBL[0..3]` with their valid bits. A slot with `TV = 0` holds no value (R22 allows
  its representation by the absence of a table), so `TV[t]` is `tbl[t].isSome` (`State.tv`, log
  entry 8). -/
  tbl : Vector (Option Table) 4
  /-- R25: the checksum state, always raw (unfinished). -/
  acc : Word
  /-- R25: the valid bit of `ACC`. -/
  av : Bool
  /-- R26: result register 0. -/
  res0 : Word
  /-- R26: result register 1. -/
  res1 : Word
  /-- R28: the sticky fault flag; `fault_o` follows it (R180). -/
  fault : Bool
  /-- R30: the cause register. -/
  cause : Cause
  /-- R31: fault information. -/
  finfo : Word
  /-- R31: fault value 0. -/
  fval0 : Word
  /-- R31: fault value 1. -/
  fval1 : Word
  /-- R33: the buffer memory. -/
  mem : Memory
  /-- The model's own field (log entry 3): the host's actions still to come, next first. -/
  pending : List HostAction
  /-- The model's own field (log entry 3): what the host has got back from its reads, latest first (R198). -/
  replies : List Reply
  deriving DecidableEq, Repr

/-- The reasons a step stops with a fault of the MODEL. The seven faults of the block itself (R170) are no stops:
they are next states with `FAULT = 1` (R171). -/
inductive Fault where
  /-- Raised by the host action `readMem a` when `a` is not below `cfg.MEMSIZE`: the byte does not exist (R33,
  log entry 5). Safe. -/
  | hostReadOutsideMem
  deriving DecidableEq, Repr

/-- The reasons a step is refused: the spec says the model has no such transition or no such configuration. -/
inductive Refusal where
  /-- The arm of a command that has no meaning yet, by its mnemonic. Safe. No arm of this model answers with it. -/
  | notModelled (mnemonic : String)
  /-- Raised by the host action `writeMem a v` when `a` is not below `cfg.MEMSIZE`: "the model has no such
  transition" (R56). Safe. -/
  | hostWriteOutsideMem
  /-- Raised by every step of a machine whose configuration is outside the ranges of R6 and R8 ("a model refuses
  it", log entry 7). Safe. -/
  | illegalConfiguration
  deriving DecidableEq, Repr

/-- R190: the machine right after reset, in the configuration of this hardware. `MEM` lists nothing: the spec gives
its bytes no value at power-up (log entry 4). The host has asked for nothing and got nothing back (log entry 3). -/
def State.reset : State where
  cfg := Cfg.hw
  tbl := #v[none, none, none, none]
  acc := 0
  av := false
  res0 := 0
  res1 := 0
  fault := false
  cause := .none
  finfo := 0
  fval0 := 0
  fval1 := 0
  mem := []
  pending := []
  replies := []

end Sys2Proof.Machine
end

