-- ==== Sys2Proof/Machine/Ops.lean ====
section
/-! DEFINITION. The named operations over the buffer memory, the tables and the registers, reset, fault entry, and the
running of one accepted command. Every read and write of the state goes through these. -/

namespace Sys2Proof.Machine

/-- What a byte of `MEM` that no entry lists reads as. DESIGN CHOICE (log entry 4): the spec gives the content of
`MEM` at power-up no value; every other content is the memory of another state (R34, R57). -/
def Memory.unlisted : Byte := 0

/-- R13 `MemRead(a, 1)`. -/
def Memory.read : Memory → Nat → Byte
  | [], _ => Memory.unlisted
  | (k, v) :: rest, a => if k = a then v else Memory.read rest a

/-- R56 `MemWrite(a, 1, v)`, keeping the canonical form: addresses strictly rising, no entry equal to what an
unlisted address reads as. -/
def Memory.write : Memory → Nat → Byte → Memory
  | [], a, v => if v = Memory.unlisted then [] else [(a, v)]
  | (k, w) :: rest, a, v =>
    if a < k then (if v = Memory.unlisted then (k, w) :: rest else (a, v) :: (k, w) :: rest)
    else if a = k then (if v = Memory.unlisted then rest else (a, v) :: rest)
    else (k, w) :: Memory.write rest a v

/-- The canonical form: addresses strictly rising, no entry equal to what an unlisted address reads as. -/
def Memory.wf : Memory → Bool
  | [] => true
  | (k, v) :: rest => decide (v ≠ Memory.unlisted) && rest.all (fun c => decide (k < c.1)) && Memory.wf rest

/-- R33: every listed byte is one of `MEM[0] .. MEM[size - 1]`. -/
def Memory.within (m : Memory) (size : Nat) : Bool :=
  m.all (fun c => decide (c.1 < size))

/-- R50: the byte sequence `MEM[addr], .., MEM[addr + n - 1]`, lowest address first; addresses are computed in
`nat`, without wraparound (R53). -/
def Memory.bytes (m : Memory) (addr n : Nat) : List Byte :=
  (List.range n).map (fun k => m.read (addr + k))

/-- All byte values `0 .. 255` in ascending order. -/
def allBytes : List Byte := (List.range 256).map (BitVec.ofNat 8)

/-- A table from its entries: `TBL[t][i] <- f i` for every `i` in `0 .. 255`. -/
def Table.ofFn (f : Byte → Word) : Table := ⟨⟨allBytes.map f⟩, by simp [allBytes]⟩

/-- Entry `i` of a table. -/
def Table.entry (t : Table) (i : Byte) : Word := t[i.toNat]'i.isLt

/-- A table with entry `i` replaced by `v`. -/
def Table.put (t : Table) (i : Byte) (v : Word) : Table := t.set i.toNat v i.isLt

/-- The table whose 256 entries are zero. -/
def Table.zero : Table := Table.ofFn (fun _ => 0)

/-- The content of slot `t`, if it is built. -/
def State.slot (s : State) (t : Slot) : Option Table := s.tbl[t.val]'t.isLt

/-- R23: a build writes all 256 entries of slot `t` and sets `TV[t] <- 1`. -/
def State.installTable (s : State) (t : Slot) (x : Table) : State :=
  { s with tbl := s.tbl.set t.val (some x) t.isLt }

/-- `ACC <- v`. -/
def State.setAcc (s : State) (v : Word) : State := { s with acc := v }

/-- `ACC <- v`, `AV <- 1` (R25: `CINIT` and `CSUM`). -/
def State.startAcc (s : State) (v : Word) : State := { s with acc := v, av := true }

/-- `RES0 <- v`. -/
def State.setRes0 (s : State) (v : Word) : State := { s with res0 := v }

/-- `RES1 <- v`. -/
def State.setRes1 (s : State) (v : Word) : State := { s with res1 := v }

/-- R171: fault entry, one atomic change. It saves nothing else, changes no mode and transfers control nowhere. -/
def State.enterFault (s : State) (f : FaultReport) : State :=
  { s with fault := true, cause := f.cause, finfo := f.info, fval0 := f.v0, fval1 := f.v1 }

/-- R190, R191: the reset action. `MEM` and `cfg` are unchanged; the host's list and what it has got back are the
host's and are unchanged too. -/
def State.resetBlock (s : State) : State :=
  { s with tbl := #v[none, none, none, none], acc := 0, av := false, res0 := 0, res1 := 0, fault := false,
           cause := .none, finfo := 0, fval0 := 0, fval1 := 0 }

/-- R56: the host writes one byte of `MEM`. -/
def State.writeMem (s : State) (a : Nat) (v : Byte) : State := { s with mem := s.mem.write a v }

/-- The host's list of actions still to come (log entry 3). -/
def State.setPending (s : State) (actions : List HostAction) : State := { s with pending := actions }

/-- The host gets a value back (R198, log entry 3). -/
def State.reply (s : State) (r : Reply) : State := { s with replies := r :: s.replies }

/-- What running an accepted command gives: the state after all its writes, or the fault it raises. R172: on a fault
the writes are dropped and only R171 happens, whenever in the command the fault is detected.
R173: with `FAULT = 1` the command is discarded (log entry 13). -/
def command (s : State) (result : Except FaultReport State) : Host.Outcome State Fault Refusal :=
  if s.fault then .next s
  else
    match result with
    | .ok t => .next t
    | .error f => .next (s.enterFault f)

end Sys2Proof.Machine
end

