-- ==== Sys2Proof/Machine/Crc.lean ====
section
/-! DEFINITION. The shared pure functions of the data path (spec/00_scope.md R14): the bit-round and the doubling
construction (spec/41_base_table_builders.md R100, R102), the engine's `update`, `finish`, `fold`, `checksum`
(spec/42_checksum_engine.md R110 to R113), the rolling step (spec/44_rolling_window.md R130) and the four table
contents. They read nothing but their arguments. -/

namespace Sys2Proof.Machine

/-- R100 `step(r)`: one CRC bit-round for the polynomial `poly`. -/
def bitRound (poly r : Word) : Word :=
  if r.getLsbD 0 then (r >>> 1) ^^^ poly else r >>> 1

/-- `step` applied `n` times. -/
def bitRounds (poly : Word) : Nat → Word → Word
  | 0, r => r
  | n + 1, r => bitRounds poly n (bitRound poly r)

/-- R101: the bitwise reference table, entry `i` being eight bit-rounds from `i`. -/
def referenceTable (poly : Word) : Table :=
  Table.ofFn (fun i => bitRounds poly 8 i.zext)

/-- R102, first loop: store the running value at each index of the list, then take one bit-round. -/
def doublingAnchors (poly : Word) : List Byte → Table → Word → Table
  | [], t, _ => t
  | i :: rest, t, r => doublingAnchors poly rest (t.put i r) (bitRound poly r)

/-- R102, inner second loop at the power of two `i`: `table[i + j] <- table[i] ^ table[j]` for the `j` of the list. -/
def doublingRow (i : Byte) (js : List Byte) (t : Table) : Table :=
  js.foldl (fun t j => t.put (i + j) (t.entry i ^^^ t.entry j)) t

/-- `1 .. i - 1`, both ends included, ascending. -/
def bytesBelow (i : Byte) : List Byte :=
  (List.range (i.toNat - 1)).map (fun k => BitVec.ofNat 8 (k + 1))

/-- R102 `doubling(seed)`. Each of the 256 entries is written exactly once, so the table it starts from does not
matter. -/
def doubling (poly seed : Word) : Table :=
  let anchored := doublingAnchors poly [128, 64, 32, 16, 8, 4, 2, 1] (Table.zero.put 0 0) seed
  [(2 : Byte), 4, 8, 16, 32, 64, 128].foldl (fun t i => doublingRow i (bytesBelow i) t) anchored

/-- R110 `update(s, t, b)`, `x` being the content of slot `t`. -/
def update (x : Table) (s : Word) (b : Byte) : Word :=
  x.entry ((s ^^^ b.zext).setWidth 8) ^^^ (s >>> 8)

/-- R111 `finish(s)`. -/
def finish (c : Cfg) (s : Word) : Word := s ^^^ c.init

/-- R112 `fold(t, addr, n)`: the raw state after the `n` bytes at `addr`, from `cfg.INIT`. -/
def fold (c : Cfg) (x : Table) (m : Memory) (addr n : Nat) : Word :=
  (m.bytes addr n).foldl (update x) c.init

/-- R113 `checksum(t, addr, n)`. -/
def checksum (c : Cfg) (x : Table) (m : Memory) (addr n : Nat) : Word :=
  finish c (fold c x m addr n)

/-- `n` updates with the byte zero. -/
def zeroUpdates (x : Table) : Nat → Word → Word
  | 0, s => s
  | n + 1, s => zeroUpdates x n (update x s 0)

/-- R120: the brute-force rolling table of the base table `x`. The byte-present branch takes `1 + W` updates, the
byte-absent branch `W` (spec/90_conflicts.md C3). -/
def rollingTable (c : Cfg) (x : Table) : Table :=
  Table.ofFn (fun b => zeroUpdates x c.w (update x c.init b) ^^^ zeroUpdates x c.w c.init)

/-- R121: the doubling table whose seed is entry 128 of the slow rolling table `x` (spec/90_conflicts.md C4). -/
def fastRollingTable (c : Cfg) (x : Table) : Table :=
  doubling c.poly (x.entry 128)

/-- R130: the rolling step on a raw state, byte `bin` entering and `bout` leaving. -/
def rollStep (base rolling : Table) (s : Word) (bin bout : Byte) : Word :=
  update base s bin ^^^ rolling.entry bout

/-- R140: the lowest index at which two tables differ. -/
def firstDifference (x y : Table) : Option Byte :=
  allBytes.find? (fun i => x.entry i != y.entry i)

/-- R131, one position: compare the direct checksum of the window at `addr + k` with the finished incremental state
`s`. Both values, or ROLL_MISMATCH. -/
def compareWindow (c : Cfg) (base : Table) (m : Memory) (addr k : Nat) (s : Word) : Except FaultReport (Word × Word) :=
  let d := checksum c base m (addr + k) c.w
  let r := finish c s
  if d = r then .ok (d, r) else .error ⟨.rollMismatch, BitVec.ofNat 32 k, d, r⟩

/-- R131, the loop from position `k` on with raw state `s` and `left` more positions after it (spec/90_conflicts.md
C5: every position is checked, ascending). -/
def verifyWindows (c : Cfg) (base rolling : Table) (m : Memory) (addr : Nat) :
    (left k : Nat) → Word → Except FaultReport (Word × Word)
  | 0, k, s => compareWindow c base m addr k s
  | left + 1, k, s =>
    match compareWindow c base m addr k s with
    | .error f => .error f
    | .ok _ =>
      verifyWindows c base rolling m addr left (k + 1)
        (rollStep base rolling s (m.read (addr + c.w + k)) (m.read (addr + k)))

end Sys2Proof.Machine
end

