-- ==== Sys2Proof/Machine/Operands.lean ====
section
/-! DEFINITION. The operand forms of the commands (spec/30_encoding.md R73, R74) with the acceptance check each of
them carries (spec/60_exceptions.md R175 to R179). A command rule runs its checks in the order it lists them. -/

namespace Sys2Proof.Machine

/-- A slot number as the 32-bit value a fault records (R170: "slot number, 0 .. 3"). -/
def slotWord (t : Slot) : Word := (BitVec.ofFin (w := 2) t).setWidth 32

/-- A source slot: its table, or TABLE_INVALID with `FINFO = t` (R176). -/
def sourceTable (s : State) (t : Slot) : Except FaultReport Table :=
  match s.slot t with
  | some x => .ok x
  | none => .error ⟨.tableInvalid, slotWord t, 0, 0⟩

/-- A destination slot must not be built yet, else TABLE_LOCKED with `FINFO = t` (R177). -/
def destinationFree (s : State) (t : Slot) : Except FaultReport Unit :=
  match s.slot t with
  | some _ => .error ⟨.tableLocked, slotWord t, 0, 0⟩
  | none => .ok ()

/-- The accumulator as an operand: its raw state, or ACC_INVALID (R178). -/
def accumulator (s : State) : Except FaultReport Word :=
  if s.av then .ok s.acc else .error ⟨.accInvalid, 0, 0, 0⟩

/-- R53, R179: the `length` bytes from `arg0` on must lie in `MEM`, the sum taken in `nat`; else RANGE, which records
the packet's `arg0` and `arg1`. No byte is read before this check. -/
def bufferInside (s : State) (arg0 arg1 : Word) (length : Nat) : Except FaultReport Unit :=
  if arg0.toNat + length ≤ s.cfg.memSize then .ok () else .error ⟨.range, 0, arg0, arg1⟩

end Sys2Proof.Machine
end

