-- ==== Sys2Proof/Machine/BaseTables.lean ====
section
/-! DEFINITION. The base table builders (spec/41_base_table_builders.md). -/

namespace Sys2Proof.Machine

/-- R101 `BLDREF td`. -/
def execBldref (td : Slot) (s : State) : Host.Outcome State Fault Refusal :=
  command s do
    destinationFree s td
    return s.installTable td (referenceTable s.cfg.poly)

/-- R103 `BLDDBL td, seed`. -/
def execBlddbl (td : Slot) (seed : Word) (s : State) : Host.Outcome State Fault Refusal :=
  command s do
    destinationFree s td
    return s.installTable td (doubling s.cfg.poly seed)

end Sys2Proof.Machine
end

