-- ==== Sys2Proof/Machine/Checksum.lean ====
section
/-! DEFINITION. The checksum engine (spec/42_checksum_engine.md). -/

namespace Sys2Proof.Machine

/-- R114 `CINIT`. -/
def execCinit (s : State) : Host.Outcome State Fault Refusal :=
  command s (.ok (s.startAcc s.cfg.init))

/-- R115 `CUPD ts, b`. -/
def execCupd (ts : Slot) (b : Byte) (s : State) : Host.Outcome State Fault Refusal :=
  command s do
    let x ← sourceTable s ts
    let acc ← accumulator s
    return s.setAcc (update x acc b)

/-- R116 `CFIN`. The state stays valid and unchanged. -/
def execCfin (s : State) : Host.Outcome State Fault Refusal :=
  command s do
    let acc ← accumulator s
    return s.setRes0 (finish s.cfg acc)

/-- R117 `CSUM ts, addr, len`. `ACC` receives the raw state, `RES0` the finished checksum. -/
def execCsum (ts : Slot) (addr len : Word) (s : State) : Host.Outcome State Fault Refusal :=
  command s do
    let x ← sourceTable s ts
    bufferInside s addr len len.toNat
    let raw := fold s.cfg x s.mem addr.toNat len.toNat
    return (s.startAcc raw).setRes0 (finish s.cfg raw)

end Sys2Proof.Machine
end

