-- ==== Sys2Proof/Machine/Compare.lean ====
section
/-! DEFINITION. Table comparison, table read-out and no-operation (spec/45_compare_and_access.md). -/

namespace Sys2Proof.Machine

/-- R142 `NOP`. -/
def execNop (s : State) : Host.Outcome State Fault Refusal :=
  command s (.ok s)

/-- R140 `CMPTBL ta, tb`. -/
def execCmptbl (ta tb : Slot) (s : State) : Host.Outcome State Fault Refusal :=
  command s do
    let x ← sourceTable s ta
    let y ← sourceTable s tb
    match firstDifference x y with
    | some i => .error ⟨.tableMismatch, i.zext, x.entry i, y.entry i⟩
    | none => return s

/-- R141 `RDTBL ts, idx`. -/
def execRdtbl (ts : Slot) (idx : Byte) (s : State) : Host.Outcome State Fault Refusal :=
  command s do
    let x ← sourceTable s ts
    return s.setRes0 (x.entry idx)

end Sys2Proof.Machine
end

