-- ==== Sys2Proof/Machine/Rolling.lean ====
section
/-! DEFINITION. The rolling step and the rolling-window verifier (spec/44_rolling_window.md). -/

namespace Sys2Proof.Machine

/-- R130 `CROLL tb, tr, bin, bout`. -/
def execCroll (tb tr : Slot) (bin bout : Byte) (s : State) : Host.Outcome State Fault Refusal :=
  command s do
    let base ← sourceTable s tb
    let rolling ← sourceTable s tr
    let acc ← accumulator s
    return s.setAcc (rollStep base rolling acc bin bout)

/-- R131 `ROLLVFY tb, tr, addr, n`. `ACC` and `AV` are neither read nor changed. -/
def execRollvfy (tb tr : Slot) (addr n : Word) (s : State) : Host.Outcome State Fault Refusal :=
  command s do
    let base ← sourceTable s tb
    let rolling ← sourceTable s tr
    bufferInside s addr n (s.cfg.w + n.toNat)
    let (direct, incremental) ←
      verifyWindows s.cfg base rolling s.mem addr.toNat n.toNat 0 (fold s.cfg base s.mem addr.toNat s.cfg.w)
    return (s.setRes0 direct).setRes1 incremental

end Sys2Proof.Machine
end

