-- ==== Sys2Proof/Machine/RollingTables.lean ====
section
/-! DEFINITION. The rolling table builders (spec/43_rolling_table_builders.md). Their source slot is checked before
their destination slot (spec/60_exceptions.md R175). -/

namespace Sys2Proof.Machine

/-- R120 `BLDRSLOW td, ts`. -/
def execBldrslow (td ts : Slot) (s : State) : Host.Outcome State Fault Refusal :=
  command s do
    let base ← sourceTable s ts
    destinationFree s td
    return s.installTable td (rollingTable s.cfg base)

/-- R121 `BLDRFAST td, ts`. -/
def execBldrfast (td ts : Slot) (s : State) : Host.Outcome State Fault Refusal :=
  command s do
    let slow ← sourceTable s ts
    destinationFree s td
    return s.installTable td (fastRollingTable s.cfg slow)

end Sys2Proof.Machine
end

