-- ==== Sys2Proof/Machine/Dispatch.lean ====
section
/-! DEFINITION. The one dispatch from a command to its meaning. -/

namespace Sys2Proof.Machine

def exec (i : Instr) (s : State) : Host.Outcome State Fault Refusal :=
  match i with
  | .nop => Sys2Proof.Machine.execNop s
  | .bldref td => Sys2Proof.Machine.execBldref td s
  | .blddbl td seed => Sys2Proof.Machine.execBlddbl td seed s
  | .bldrslow td ts => Sys2Proof.Machine.execBldrslow td ts s
  | .bldrfast td ts => Sys2Proof.Machine.execBldrfast td ts s
  | .cinit => Sys2Proof.Machine.execCinit s
  | .cupd ts b => Sys2Proof.Machine.execCupd ts b s
  | .cfin => Sys2Proof.Machine.execCfin s
  | .csum ts addr len => Sys2Proof.Machine.execCsum ts addr len s
  | .croll tb tr bin bout => Sys2Proof.Machine.execCroll tb tr bin bout s
  | .cmptbl ta tb => Sys2Proof.Machine.execCmptbl ta tb s
  | .rollvfy tb tr addr n => Sys2Proof.Machine.execRollvfy tb tr addr n s
  | .rdtbl ts idx => Sys2Proof.Machine.execRdtbl ts idx s

end Sys2Proof.Machine
end

