-- ==== Sys2Proof/Machine/Flags.lean ====
section
/-! DEFINITION. The flags and the host's register read port (spec/10_state.md R28 to R32, R37). No flag is a condition
code and no register read has a side effect. -/

namespace Sys2Proof.Machine

/-- R22: the valid bit `TV[t]`. -/
def State.tv (s : State) (t : Slot) : Bool := (s.slot t).isSome

/-- R30: the code in bits 2:0 of `CAUSE`. -/
def Cause.code : Cause → BitVec 3
  | .none => 0
  | .tableMismatch => 1
  | .rollMismatch => 2
  | .illegalCommand => 3
  | .tableInvalid => 4
  | .tableLocked => 5
  | .accInvalid => 6
  | .range => 7

/-- R180: the output signal `fault_o`, equal to `FAULT` at all times. -/
def State.faultOut (s : State) : Bool := s.fault

/-- R29: `STATUS`, most significant field first: bits 31:8 zero, `TV[3]` to `TV[0]` in bits 7:4, bits 3:2 zero,
`AV` in bit 1, `FAULT` in bit 0. -/
def State.status (s : State) : Word :=
  0#24 ++ BitVec.ofBool (s.tv 3) ++ BitVec.ofBool (s.tv 2) ++ BitVec.ofBool (s.tv 1) ++ BitVec.ofBool (s.tv 0) ++
    0#2 ++ BitVec.ofBool s.av ++ BitVec.ofBool s.fault

/-- R37, R32: the value of the register numbered `n` on the host read port; 12 and above read zero. -/
def readRegister (s : State) (n : Word) : Word :=
  match n.toNat with
  | 0 => s.status
  | 1 => s.cause.code.setWidth 32
  | 2 => s.finfo
  | 3 => s.fval0
  | 4 => s.fval1
  | 5 => s.acc
  | 6 => s.res0
  | 7 => s.res1
  | 8 => s.cfg.poly
  | 9 => BitVec.ofNat 32 s.cfg.w
  | 10 => s.cfg.init
  | 11 => BitVec.ofNat 32 s.cfg.memSize
  | _ => 0

end Sys2Proof.Machine
end

