-- ==== Sys2Proof/WellFormed.lean ====
section
/-! DEFINITION. What the spec demands of a configuration and of a host action before the block is asked to run.
A command needs no check of its own: the types of its operands (Sys2Proof.Instr) are exactly the ranges of their
fields. An ill-formed PACKET is no ill-formed input either, it is the fault ILLEGAL_COMMAND (Sys2Proof.decode). -/

namespace Sys2Proof

/-- R6 and R8: `1 <= cfg.W <= 2^32 - 1` and `1 <= cfg.MEMSIZE <= 2^32 - 1`. Any other configuration is refused. -/
def Cfg.legal (c : Cfg) : Bool :=
  decide (1 ≤ c.w) && decide (c.w ≤ 4294967295) && decide (1 ≤ c.memSize) && decide (c.memSize ≤ 4294967295)

namespace Machine

/-- R56, R33: a host memory access names a byte of `MEM`. Every other action is allowed in every state between
commands (R198). -/
def HostAction.wf (c : Cfg) : HostAction → Bool
  | .writeMem a _ => decide (a < c.memSize)
  | .readMem a => decide (a < c.memSize)
  | .reset | .issue _ | .readReg _ | .observeFault => true

/-- A well-formed program: a finite list of well-formed host actions (R199). -/
def programWf (c : Cfg) (actions : List HostAction) : Bool :=
  actions.all (HostAction.wf c)

end Machine

end Sys2Proof
end

