-- ==== Sys2Proof/Machine/HostPort.lean ====
section
/-! DEFINITION. The host's three ports and its reset (spec/70_reset_and_hazards.md R198, spec/20_memory.md R56, R58),
and the taking of the host's next action. One action is one atomic step (R15, R55, R60; log entry 9). -/

namespace Sys2Proof.Machine

/-- The command port. R173: with `FAULT = 1` the packet is discarded and not decoded. R174: an illegal packet raises
ILLEGAL_COMMAND, which records the whole packet, before any other check. -/
def issue (p : Packet) (s : State) : Host.Outcome State Fault Refusal :=
  if s.fault then .next s
  else
    match decode p with
    | .ok i => exec i s
    | .error _ => .next (s.enterFault ⟨.illegalCommand, p.word0, p.arg0, p.arg1⟩)

/-- R80: the directive `.mem addr, b0 b1 ...` is one host write per byte, to ascending addresses. -/
def memDirective (addr : Nat) : List Byte → List HostAction
  | [] => []
  | b :: rest => .writeMem addr b :: memDirective (addr + 1) rest

/-- R198: one host action. R56: a write outside `MEM` is no transition of the model. A read outside `MEM` names a
byte that does not exist (log entry 5). -/
def hostAct (a : HostAction) (s : State) : Host.Outcome State Fault Refusal :=
  match a with
  | .reset => .next s.resetBlock
  | .writeMem a v => if a < s.cfg.memSize then .next (s.writeMem a v) else .refused .hostWriteOutsideMem
  | .readMem a => if a < s.cfg.memSize then .next (s.reply (.byte (s.mem.read a))) else .fault .hostReadOutsideMem
  | .issue p => issue p s
  | .readReg n => .next (s.reply (.word (readRegister s n)))
  | .observeFault => .next (s.reply (.level s.faultOut))

/-- One step: the host's next action in the order of its list (R60, R199). With no action left the block waits and
nothing changes (log entry 6). R6, R8: a configuration out of range is refused. -/
def hostStep (s : State) : Host.Outcome State Fault Refusal :=
  if s.cfg.legal then
    match s.pending with
    | [] => .next s
    | a :: rest => hostAct a (s.setPending rest)
  else .refused .illegalConfiguration

end Sys2Proof.Machine
end

