-- ==== Sys2Proof/Machine/Step.lean ====
section
/-! DEFINITION. The step of the machine, and the placing of an opcode-table row's packet as the next one the host
issues. -/

namespace Sys2Proof.Machine

/-- One host action (R198). -/
def step (s : State) : Host.Outcome State Fault Refusal := hostStep s

/-- The state in which the host issues next the packet with the `nbits` bits `w` (log entry 6). -/
def State.withFetchWord (s : State) (nbits w : Nat) : State :=
  s.setPending (.issue (packetOfTableWord nbits w) :: s.pending)

end Sys2Proof.Machine
end

