-- ==== Sys2Proof/Safety.lean ====
section
/-! DEFINITION. What counts as a good state and a successful run, and the algebraic terms the properties of
spec/48_properties.md are stated in. -/

namespace Sys2Proof.Machine

/-- R199: a run is successful when `FAULT = 0` at its end. -/
def State.ok (s : State) : Prop := s.fault = false

/-- R36 (a) to (c) together with the canonical form of the memory and a legal configuration: what holds in every
state the host can reach from reset. -/
structure State.Inv (s : State) : Prop where
  /-- R6, R8. -/
  cfgLegal : s.cfg.legal = true
  /-- The memory is in canonical form. -/
  memWf : s.mem.wf = true
  /-- R33: nothing is listed outside `MEM`. -/
  memWithin : s.mem.within s.cfg.memSize = true
  /-- R36 (a). -/
  faultIffCause : s.fault = false ↔ s.cause = .none
  /-- R36 (b). -/
  faultRegsClear : s.fault = false → s.finfo = 0 ∧ s.fval0 = 0 ∧ s.fval1 = 0
  /-- R36 (c). -/
  accClear : s.av = false → s.acc = 0

/-- spec/48_properties.md: a table is linear when `X[a ^ b] = X[a] ^ X[b]` for all `a`, `b`. -/
def Table.Linear (x : Table) : Prop := ∀ a b : Byte, x.entry (a ^^^ b) = x.entry a ^^^ x.entry b

/-- `K` of spec/48_properties.md R156: what `W + 1` and `W` zero updates of `cfg.INIT` differ by. -/
def rollConstant (c : Cfg) (x : Table) : Word := zeroUpdates x (c.w + 1) c.init ^^^ zeroUpdates x c.w c.init

/-- The raw state of R131's incremental path at window position `k`: the fold of the first window, then `k` rolling
steps of R130. -/
def incrementalState (c : Cfg) (base rolling : Table) (m : Memory) (addr : Nat) : Nat → Word
  | 0 => fold c base m addr c.w
  | k + 1 =>
    rollStep base rolling (incrementalState c base rolling m addr k) (m.read (addr + c.w + k)) (m.read (addr + k))

/-- The command writes no table: it is not one of the four builds (R23). -/
def notABuild : Instr → Bool
  | .bldref _ | .blddbl _ _ | .bldrslow _ _ | .bldrfast _ _ => false
  | .nop | .cinit | .cupd _ _ | .cfin | .csum _ _ _ | .croll _ _ _ _ | .cmptbl _ _ | .rollvfy _ _ _ _ | .rdtbl _ _ => true

end Sys2Proof.Machine
end

