-- ==== Sys2Proof/Certificates/Slice0/Obligations.lean ====
section
/-! DEFINITION. The statements about the block, for the provers. Each docstring names the rules of spec/ it formalises;
a clause that is the model's choice says so and names its log entry. -/

open Sys2Proof Sys2Proof.Machine

/-! ## Encoding -/

/-- R71 to R77: no bit of an operand is lost between the encoder and the decoder. -/
def Obligations.DecodeOfEncode : Prop :=
  ∀ i : Instr, decode (encode i) = .ok i

/-- R77: every packet that decodes is the one packet of its command. -/
def Obligations.EncodeOfDecode : Prop :=
  ∀ (p : Packet) (i : Instr), decode p = .ok i → encode i = p

/-- R75: a packet decodes to a command of the row `op` exactly when `(word0 & mask) = match` and the argument words
the row does not use are zero. -/
def Obligations.DecodeSelectsTableRow : Prop :=
  ∀ (p : Packet) (op : Opcode),
    (∃ i, decode p = .ok i ∧ i.opcode = op) ↔
      (p.word0 &&& op.maskWord = op.matchWord ∧ (op.format.usesArg0 = false → p.arg0 = 0) ∧
        (op.format.usesArg1 = false → p.arg1 = 0))

/-- R77 (a) to (d): which packets are illegal. -/
def Obligations.IllegalPackets : Prop :=
  ∀ p : Packet, (∃ e, decode p = .error e) ↔
    ((∀ op : Opcode, fieldOpcode p.word0 ≠ op.code) ∨ fieldZero p.word0 ≠ 0 ∨
      ∃ op : Opcode, fieldOpcode p.word0 = op.code ∧
        ((op.format.usesT1 = false ∧ fieldT1 p.word0 ≠ 0) ∨ (op.format.usesT2 = false ∧ fieldT2 p.word0 ≠ 0) ∨
          (op.format.usesB1 = false ∧ fieldB1 p.word0 ≠ 0) ∨ (op.format.usesB2 = false ∧ fieldB2 p.word0 ≠ 0) ∨
          (op.format.usesArg0 = false ∧ p.arg0 ≠ 0) ∨ (op.format.usesArg1 = false ∧ p.arg1 ≠ 0)))

/-- R83: the worked encodings, the illegal ones included. -/
def Obligations.WorkedEncodings : Prop :=
  decode ⟨0x00000000, 0x00000000, 0x00000000⟩ = .ok .nop ∧
  decode ⟨0x01000000, 0x00000000, 0x00000000⟩ = .ok (.bldref 0) ∧
  decode ⟨0x02010000, 0xEDB88320, 0x00000000⟩ = .ok (.blddbl 1 0xEDB88320) ∧
  decode ⟨0x03020000, 0x00000000, 0x00000000⟩ = .ok (.bldrslow 2 0) ∧
  decode ⟨0x040B0000, 0x00000000, 0x00000000⟩ = .ok (.bldrfast 3 2) ∧
  decode ⟨0x10000000, 0x00000000, 0x00000000⟩ = .ok .cinit ∧
  decode ⟨0x11000031, 0x00000000, 0x00000000⟩ = .ok (.cupd 0 0x31) ∧
  decode ⟨0x12000000, 0x00000000, 0x00000000⟩ = .ok .cfin ∧
  decode ⟨0x13000000, 0x00000100, 0x00000009⟩ = .ok (.csum 0 0x100 9) ∧
  decode ⟨0x14080B2C, 0x00000000, 0x00000000⟩ = .ok (.croll 0 2 0x2C 0x0B) ∧
  decode ⟨0x200E0000, 0x00000000, 0x00000000⟩ = .ok (.cmptbl 2 3) ∧
  decode ⟨0x21080000, 0x00000000, 0x000000C8⟩ = .ok (.rollvfy 0 2 0 200) ∧
  decode ⟨0x30000001, 0x00000000, 0x00000000⟩ = .ok (.rdtbl 0 1) ∧
  decode ⟨0x05000000, 0x00000000, 0x00000000⟩ = .error .unassignedOpcode ∧
  decode ⟨0x01100000, 0x00000000, 0x00000000⟩ = .error .zeroFieldSet ∧
  decode ⟨0x01000001, 0x00000000, 0x00000000⟩ = .error .unusedFieldSet ∧
  decode ⟨0x10000000, 0x00000001, 0x00000000⟩ = .error .unusedArgumentSet

/-- R71: the formula of `word0`, and the bit places of the fields the decoder reads. -/
def Obligations.CommandWordLayout : Prop :=
  (∀ (op : Opcode) (t2 t1 : Slot) (b2 b1 : Byte),
    layoutWord0 op t2 t1 b2 b1 =
      (op.code.zext <<< 24) ||| (slotWord t2 <<< 18) ||| (slotWord t1 <<< 16) ||| (b2.zext <<< 8) ||| b1.zext) ∧
  ∀ w : Word,
    (fieldOpcode w).zext = w >>> 24 ∧ (fieldZero w).setWidth 32 = (w >>> 20) &&& 0xF ∧
      slotWord (fieldT2 w) = (w >>> 18) &&& 3 ∧ slotWord (fieldT1 w) = (w >>> 16) &&& 3 ∧
      (fieldB2 w).zext = (w >>> 8) &&& 0xFF ∧ (fieldB1 w).zext = w &&& 0xFF

/-- R81: the one pseudo-command and its packet. -/
def Obligations.BldfastExpansion : Prop :=
  (∀ (poly : Word) (td : Slot), bldfast poly td = .blddbl td poly) ∧
  ∀ td : Slot, encode (bldfast Cfg.hw.poly td) = ⟨0x02000000 ||| (slotWord td <<< 16), 0xEDB88320, 0⟩

/-! ## The step and the host's actions -/

/-- R198, R196: when the host's next action is the issue of a packet that decodes to `i` and the block is not
faulted, the step is `exec i`, around which the step only takes the action off the host's list (log entry 3). -/
def Obligations.StepRunsIssuedCommand : Prop :=
  ∀ (s : State) (p : Packet) (i : Instr) (rest : List HostAction),
    s.cfg.legal = true → s.fault = false → s.pending = .issue p :: rest → decode p = .ok i →
      step s = exec i { s with pending := rest }

/-- R174: an illegal packet raises ILLEGAL_COMMAND at decode, recording the whole packet, with no other effect on
the block. The model's choice (log entry 3): the step takes the action off the host's list. -/
def Obligations.IllegalCommandFault : Prop :=
  ∀ (s : State) (p : Packet) (e : DecodeError) (rest : List HostAction),
    s.cfg.legal = true → s.fault = false → s.pending = .issue p :: rest → decode p = .error e →
      step s = .next { s with pending := rest, fault := true, cause := .illegalCommand, finfo := p.word0,
                              fval0 := p.arg0, fval1 := p.arg1 }

/-- R173: while `FAULT = 1` every packet, legal or not, is discarded. Host register reads and host memory writes still
work, and only reset clears `FAULT`. The model's choice (log entry 3): each step takes the action off the host's list,
and a read's answer is put on the list of replies. -/
def Obligations.FaultedBlockDiscardsPackets : Prop :=
  (∀ (s : State) (p : Packet) (rest : List HostAction),
    s.cfg.legal = true → s.fault = true → s.pending = .issue p :: rest → step s = .next { s with pending := rest }) ∧
  (∀ (s : State) (n : Word) (rest : List HostAction),
    s.cfg.legal = true → s.fault = true → s.pending = .readReg n :: rest →
      step s = .next { s with pending := rest, replies := .word (readRegister s n) :: s.replies }) ∧
  (∀ (s : State) (a : Nat) (v : Byte) (rest : List HostAction),
    s.cfg.legal = true → s.fault = true → a < s.cfg.memSize → s.pending = .writeMem a v :: rest →
      step s = .next { s with pending := rest, mem := s.mem.write a v }) ∧
  (∀ s t : State, s.fault = true → s.pending.head? ≠ some .reset → step s = .next t → t.fault = true)

/-- R36 (e): once `FAULT = 1`, no register, flag or table changes until reset. -/
def Obligations.FaultedBlockIsFrozen : Prop :=
  ∀ s t : State, s.fault = true → s.pending.head? ≠ some .reset → step s = .next t →
    t = { s with mem := t.mem, pending := t.pending, replies := t.replies }

/-- R190: the reset action in any state. `MEM` and `cfg` are unchanged. The model's choice (log entry 3): the
host's own lists go on, the reset taken off `pending` and `replies` kept. -/
def Obligations.ResetAction : Prop :=
  ∀ (s : State) (rest : List HostAction), s.cfg.legal = true → s.pending = .reset :: rest →
    ∃ t, step s = .next t ∧ (∀ u, t.tv u = false) ∧ (∀ u, t.slot u = none) ∧ t.acc = 0 ∧ t.av = false ∧ t.res0 = 0 ∧
      t.res1 = 0 ∧ t.fault = false ∧ t.cause = .none ∧ t.finfo = 0 ∧ t.fval0 = 0 ∧ t.fval1 = 0 ∧ t.status = 0 ∧
      t.faultOut = false ∧ t.mem = s.mem ∧ t.cfg = s.cfg ∧ t.pending = rest ∧ t.replies = s.replies

/-- R190 for `State.reset`, the machine after power-up. The model's choices: `cfg.MEMSIZE` (log entry 2), the host's
empty lists (log entry 3) and a memory that lists nothing (log entry 4). -/
def Obligations.ResetStateValues : Prop :=
  (∀ u, State.reset.slot u = none) ∧ State.reset.acc = 0 ∧ State.reset.av = false ∧ State.reset.res0 = 0 ∧
    State.reset.res1 = 0 ∧ State.reset.fault = false ∧ State.reset.cause = .none ∧ State.reset.finfo = 0 ∧
    State.reset.fval0 = 0 ∧ State.reset.fval1 = 0 ∧ State.reset.status = 0 ∧ State.reset.cfg.poly = 0xEDB88320 ∧
    State.reset.cfg.w = 100 ∧ State.reset.cfg.init = 0 ∧ State.reset.mem = [] ∧ State.reset.pending = [] ∧
    State.reset.replies = []

/-- R56: a host write inside `MEM` writes that one byte whatever `FAULT` is; a host write outside is no transition; a
host read returns the byte and changes nothing of the block; the block never writes `MEM`. The model's choices: the
host's two lists (log entry 3) and the canonical form of the memory (log entry 4). -/
def Obligations.HostMemoryAccess : Prop :=
  (∀ (s : State) (a : Nat) (v : Byte) (rest : List HostAction),
    s.cfg.legal = true → s.mem.wf = true → s.pending = .writeMem a v :: rest → a < s.cfg.memSize →
      ∃ m, step s = .next { s with pending := rest, mem := m } ∧ m.wf = true ∧
        ∀ b, m.read b = if b = a then v else s.mem.read b) ∧
  (∀ (s : State) (a : Nat) (v : Byte) (rest : List HostAction),
    s.cfg.legal = true → s.pending = .writeMem a v :: rest → ¬ a < s.cfg.memSize →
      step s = .refused .hostWriteOutsideMem) ∧
  (∀ (s : State) (a : Nat) (rest : List HostAction),
    s.cfg.legal = true → s.pending = .readMem a :: rest → a < s.cfg.memSize →
      step s = .next { s with pending := rest, replies := .byte (s.mem.read a) :: s.replies }) ∧
  (∀ (i : Instr) (s t : State), exec i s = .next t → t.mem = s.mem)

/-- R37, R32, R180: a register read gives the value of R37's table and 0 from register 12 on, an observation of
`fault_o` gives `FAULT`, and neither changes anything of the block. -/
def Obligations.HostRegisterReads : Prop :=
  ∀ (s : State) (rest : List HostAction), s.cfg.legal = true →
    (∀ n : Word, s.pending = .readReg n :: rest →
      step s = .next { s with
        pending := rest
        replies := .word ([s.status, s.cause.code.setWidth 32, s.finfo, s.fval0, s.fval1, s.acc, s.res0, s.res1,
          s.cfg.poly, BitVec.ofNat 32 s.cfg.w, s.cfg.init, BitVec.ofNat 32 s.cfg.memSize].getD n.toNat 0) :: s.replies }) ∧
    (s.pending = .observeFault :: rest →
      step s = .next { s with pending := rest, replies := .level s.fault :: s.replies })

/-- R29: the fields of `STATUS`, its reset value, and the rule's example. -/
def Obligations.StatusFields : Prop :=
  (∀ s : State, s.status.getLsbD 0 = s.fault ∧ s.status.getLsbD 1 = s.av ∧ s.status.getLsbD 2 = false ∧
    s.status.getLsbD 3 = false ∧ s.status.getLsbD 4 = s.tv 0 ∧ s.status.getLsbD 5 = s.tv 1 ∧
    s.status.getLsbD 6 = s.tv 2 ∧ s.status.getLsbD 7 = s.tv 3 ∧ ∀ i, 8 ≤ i → s.status.getLsbD i = false) ∧
  State.reset.status = 0x00000000 ∧
  ∃ t u, exec (.bldref 0) State.reset = .next t ∧ exec .cinit t = .next u ∧ u.status = 0x00000012

/-- What a step does that takes no host action. The model's choice (log entry 6): with no action left nothing changes
(R199 ends a run there). R6, R8: a configuration out of range is refused. -/
def Obligations.StepsThatTakeNoAction : Prop :=
  (∀ s : State, s.cfg.legal = true → s.pending = [] → step s = .next s) ∧
  ∀ s : State, ¬ (1 ≤ s.cfg.w ∧ s.cfg.w ≤ 2 ^ 32 - 1 ∧ 1 ≤ s.cfg.memSize ∧ s.cfg.memSize ≤ 2 ^ 32 - 1) →
    step s = .refused .illegalConfiguration

/-- R34, R57: every content of `MEM` is the memory of a state, in canonical form. -/
def Obligations.EveryMemoryContentExists : Prop :=
  ∀ (size : Nat) (content : Nat → Byte),
    ∃ m : Memory, m.wf = true ∧ m.within size = true ∧ ∀ a, a < size → m.read a = content a

/-! ## Invariants -/

/-- The invariant holds at reset. -/
def Obligations.ResetSatisfiesInvariant : Prop := State.reset.Inv

/-- R36 (a) to (c), the canonical form and the bounds of the memory, and a legal configuration: every step from every
state with them keeps them. -/
def Obligations.StepKeepsInvariant : Prop :=
  ∀ s t : State, s.Inv → step s = .next t → t.Inv

/-- R198, R56: from a good state a program of well-formed host actions never stops the machine, and stays good. -/
def Obligations.WellFormedProgramNeverStops : Prop :=
  ∀ s : State, s.Inv → programWf s.cfg s.pending = true →
    ∃ t, step s = .next t ∧ t.Inv ∧ programWf t.cfg t.pending = true

/-- R32, R5: no command, no host action and no reset changes the configuration. -/
def Obligations.ConfigurationNeverChanges : Prop :=
  ∀ s t : State, step s = .next t → t.cfg = s.cfg

/-- R23, R36 (d): from the build of a slot until the next reset its 256 entries never change. -/
def Obligations.TablesAreWriteOnce : Prop :=
  ∀ (s t : State) (u : Slot) (x : Table),
    s.slot u = some x → s.pending.head? ≠ some .reset → step s = .next t → t.slot u = some x

/-- R82: every command ends in a next state, whatever the state and the operands. -/
def Obligations.EveryCommandTerminates : Prop :=
  ∀ (i : Instr) (s : State), ∃ t, exec i s = .next t

/-- R172: a command that raises a fault has no effect other than R171. -/
def Obligations.FaultsArePrecise : Prop :=
  ∀ (i : Instr) (s t : State), s.fault = false → exec i s = .next t → t.fault = true →
    t.cause ≠ .none ∧
      t = { s with fault := true, cause := t.cause, finfo := t.finfo, fval0 := t.fval0, fval1 := t.fval1 }

/-- R23, R25, R26, R28, R56: what each command leaves unchanged. `FAULT` and the fault registers change only together
with nothing else (Obligations.FaultsArePrecise); a command that completes leaves them unchanged. -/
def Obligations.CommandFrame : Prop :=
  ∀ (i : Instr) (s t : State), exec i s = .next t →
    t.cfg = s.cfg ∧ t.pending = s.pending ∧ t.replies = s.replies ∧ (∀ a, t.mem.read a = s.mem.read a) ∧
      (notABuild i = true → ∀ u, t.slot u = s.slot u) ∧
      (∀ u, (∀ td, i = .bldref td → u ≠ td) → (∀ td seed, i = .blddbl td seed → u ≠ td) →
        (∀ td ts, i = .bldrslow td ts → u ≠ td) → (∀ td ts, i = .bldrfast td ts → u ≠ td) → t.slot u = s.slot u) ∧
      ((i ≠ .cinit ∧ (∀ ts addr len, i ≠ .csum ts addr len)) →
        t.av = s.av ∧
          ((∀ ts b, i ≠ .cupd ts b) ∧ (∀ tb tr bin bout, i ≠ .croll tb tr bin bout) → t.acc = s.acc)) ∧
      ((i ≠ .cfin ∧ (∀ ts addr len, i ≠ .csum ts addr len) ∧ (∀ ts idx, i ≠ .rdtbl ts idx) ∧
        (∀ tb tr addr n, i ≠ .rollvfy tb tr addr n)) → t.res0 = s.res0) ∧
      ((∀ tb tr addr n, i ≠ .rollvfy tb tr addr n) → t.res1 = s.res1) ∧
      (t.fault = false → t.fault = s.fault ∧ t.cause = s.cause ∧ t.finfo = s.finfo ∧ t.fval0 = s.fval0 ∧
        t.fval1 = s.fval1)

/-! ## The acceptance checks -/

/-- R176 with the order of R175: a source slot that is not built raises TABLE_INVALID with its number, the first
operand before the second and before every other check. -/
def Obligations.SourceSlotMustBeBuilt : Prop :=
  ∀ (s : State) (t : Slot), s.fault = false → s.slot t = none →
    let raised : Host.Outcome State Fault Refusal :=
      .next { s with fault := true, cause := .tableInvalid, finfo := slotWord t, fval0 := 0, fval1 := 0 }
    (∀ b, exec (.cupd t b) s = raised) ∧ (∀ addr len, exec (.csum t addr len) s = raised) ∧
      (∀ idx, exec (.rdtbl t idx) s = raised) ∧ (∀ td, exec (.bldrslow td t) s = raised) ∧
      (∀ td, exec (.bldrfast td t) s = raised) ∧ (∀ tr bin bout, exec (.croll t tr bin bout) s = raised) ∧
      (∀ tb, exec (.cmptbl t tb) s = raised) ∧ (∀ tr addr n, exec (.rollvfy t tr addr n) s = raised) ∧
      ∀ u, s.slot u ≠ none →
        (∀ bin bout, exec (.croll u t bin bout) s = raised) ∧ exec (.cmptbl u t) s = raised ∧
          ∀ addr n, exec (.rollvfy u t addr n) s = raised

/-- R177 with the order of R175: a destination slot that is built raises TABLE_LOCKED and keeps its content. -/
def Obligations.DestinationSlotMustBeFree : Prop :=
  ∀ (s : State) (t : Slot), s.fault = false → s.slot t ≠ none →
    let raised : Host.Outcome State Fault Refusal :=
      .next { s with fault := true, cause := .tableLocked, finfo := slotWord t, fval0 := 0, fval1 := 0 }
    exec (.bldref t) s = raised ∧ (∀ seed, exec (.blddbl t seed) s = raised) ∧
      ∀ ts, s.slot ts ≠ none → exec (.bldrslow t ts) s = raised ∧ exec (.bldrfast t ts) s = raised

/-- R178 with the order of R175: `CUPD`, `CFIN` and `CROLL` with `AV = 0` raise ACC_INVALID. -/
def Obligations.AccumulatorMustBeValid : Prop :=
  ∀ s : State, s.fault = false → s.av = false →
    let raised : Host.Outcome State Fault Refusal :=
      .next { s with fault := true, cause := .accInvalid, finfo := 0, fval0 := 0, fval1 := 0 }
    exec .cfin s = raised ∧
      ∀ ts, s.slot ts ≠ none → (∀ b, exec (.cupd ts b) s = raised) ∧
        ∀ tr, s.slot tr ≠ none → ∀ bin bout, exec (.croll ts tr bin bout) s = raised

/-- R179 with the order of R175: a buffer that does not lie inside `MEM`, the sums in `nat`, raises RANGE. -/
def Obligations.BufferMustLieInMemory : Prop :=
  ∀ (s : State) (ts : Slot) (addr n : Word), s.fault = false → s.slot ts ≠ none →
    let raised : Host.Outcome State Fault Refusal :=
      .next { s with fault := true, cause := .range, finfo := 0, fval0 := addr, fval1 := n }
    (addr.toNat + n.toNat > s.cfg.memSize → exec (.csum ts addr n) s = raised) ∧
      ∀ tr, s.slot tr ≠ none → addr.toNat + s.cfg.w + n.toNat > s.cfg.memSize →
        exec (.rollvfy ts tr addr n) s = raised

/-- R24: one slot as source and destination always faults; one slot twice as a source is legal. -/
def Obligations.OneSlotNamedTwice : Prop :=
  ∀ (s : State) (t : Slot), s.fault = false →
    (∀ i : Instr, i = .bldrslow t t ∨ i = .bldrfast t t →
      ∃ u, exec i s = .next u ∧ u.fault = true ∧
        u.cause = (if s.slot t = none then Cause.tableInvalid else Cause.tableLocked)) ∧
    ∀ x, s.slot t = some x →
      exec (.cmptbl t t) s = .next s ∧
        (s.av = true → ∀ bin bout,
          exec (.croll t t bin bout) s = .next { s with acc := update x s.acc bin ^^^ x.entry bout }) ∧
        ∀ addr n u, exec (.rollvfy t t addr n) s = .next u → u.fault = true →
          u.cause = .range ∨ u.cause = .rollMismatch

/-! ## The results of the commands -/

/-- R142: `NOP` changes nothing in any state, and the all-zero packet is `NOP`. -/
def Obligations.NopChangesNothing : Prop :=
  (∀ s : State, exec .nop s = .next s) ∧ encode .nop = ⟨0, 0, 0⟩

/-- R101: `BLDREF` fills the free slot `td` with eight bit-rounds of each index, and changes nothing else. -/
def Obligations.BldrefBuildsReferenceTable : Prop :=
  ∀ (s : State) (td : Slot), s.fault = false → s.slot td = none →
    ∃ x : Table, exec (.bldref td) s = .next { s with tbl := s.tbl.set td.val (some x) td.isLt } ∧
      (∀ i, x.entry i = bitRounds s.cfg.poly 8 i.zext) ∧ x.entry 0 = 0 ∧ x.entry 128 = s.cfg.poly

/-- R103, R102: `BLDDBL` fills the free slot `td` with the doubling table of the seed: entry 0 is 0, entry `2^k` is
`7 - k` bit-rounds of the seed, and every other entry is the sum of the two it is made of. -/
def Obligations.BlddblBuildsDoublingTable : Prop :=
  ∀ (s : State) (td : Slot) (seed : Word), s.fault = false → s.slot td = none →
    ∃ x : Table, exec (.blddbl td seed) s = .next { s with tbl := s.tbl.set td.val (some x) td.isLt } ∧
      x.entry 0 = 0 ∧ (∀ k, k < 8 → x.entry (BitVec.ofNat 8 (2 ^ k)) = bitRounds s.cfg.poly (7 - k) seed) ∧
      ∀ k j, k < 8 → j < 2 ^ k →
        x.entry (BitVec.ofNat 8 (2 ^ k + j)) = x.entry (BitVec.ofNat 8 (2 ^ k)) ^^^ x.entry (BitVec.ofNat 8 j)

/-- R120: `BLDRSLOW` fills the free slot `td`; entry `b` is the XOR of the state after the byte `b` and `cfg.W` zero
bytes with the state after `cfg.W` zero bytes, both from `cfg.INIT` with the source table. -/
def Obligations.BldrslowBuildsRollingTable : Prop :=
  ∀ (s : State) (td ts : Slot) (y : Table), s.fault = false → s.slot ts = some y → s.slot td = none →
    ∃ x : Table, exec (.bldrslow td ts) s = .next { s with tbl := s.tbl.set td.val (some x) td.isLt } ∧
      ∀ b, x.entry b = (b :: List.replicate s.cfg.w 0).foldl (update y) s.cfg.init ^^^
        (List.replicate s.cfg.w 0).foldl (update y) s.cfg.init

/-- R121: `BLDRFAST td, ts` is `BLDDBL td, TBL[ts][128]`; entry 128 of the result is the source's, entry 0 is 0. -/
def Obligations.BldrfastBuildsFromEntry128 : Prop :=
  ∀ (s : State) (td ts : Slot) (y : Table), s.slot ts = some y →
    exec (.bldrfast td ts) s = exec (.blddbl td (y.entry 128)) s ∧
      (s.fault = false → s.slot td = none →
        ∃ x : Table, exec (.bldrfast td ts) s = .next { s with tbl := s.tbl.set td.val (some x) td.isLt } ∧
          x.entry 128 = y.entry 128 ∧ x.entry 0 = 0)

/-- R114: `CINIT` writes `ACC` and `AV` in every unfaulted state, and nothing else. -/
def Obligations.CinitStartsChecksum : Prop :=
  ∀ s : State, s.fault = false → exec .cinit s = .next { s with acc := s.cfg.init, av := true }

/-- R115, R110: `CUPD` takes one byte-step with the entry indexed by the low byte of the state XOR the byte. -/
def Obligations.CupdFoldsOneByte : Prop :=
  ∀ (s : State) (ts : Slot) (b : Byte) (x : Table), s.fault = false → s.slot ts = some x → s.av = true →
    exec (.cupd ts b) s = .next { s with acc := x.entry (s.acc.setWidth 8 ^^^ b) ^^^ (s.acc >>> 8) }

/-- R116, R111: `CFIN` writes the finished checksum and leaves the state valid and unchanged. -/
def Obligations.CfinFinishesIntoRes0 : Prop :=
  ∀ s : State, s.fault = false → s.av = true → exec .cfin s = .next { s with res0 := s.acc ^^^ s.cfg.init }

/-- R117, R112, R50: `CSUM` folds the bytes of the buffer, lowest address first, and writes `ACC`, `AV`, `RES0`. -/
def Obligations.CsumChecksumsBuffer : Prop :=
  ∀ (s : State) (ts : Slot) (addr len : Word) (x : Table), s.fault = false → s.slot ts = some x →
    addr.toNat + len.toNat ≤ s.cfg.memSize →
      let raw := (List.ofFn fun k : Fin len.toNat => s.mem.read (addr.toNat + k)).foldl (update x) s.cfg.init
      exec (.csum ts addr len) s = .next { s with acc := raw, av := true, res0 := raw ^^^ s.cfg.init }

/-- R117: a buffer one byte longer is one `CUPD` more: `CSUM` of `len + 1` bytes leaves the `ACC` and `AV` that `CSUM`
of `len` bytes followed by `CUPD` of the next byte leaves. -/
def Obligations.CsumExtendsByCupd : Prop :=
  ∀ (s : State) (ts : Slot) (addr len : Word) (x : Table), s.fault = false → s.slot ts = some x →
    len ≠ 0xFFFFFFFF → addr.toNat + (len.toNat + 1) ≤ s.cfg.memSize →
      ∃ t u v, exec (.csum ts addr len) s = .next t ∧
        exec (.cupd ts (s.mem.read (addr.toNat + len.toNat))) t = .next u ∧
        exec (.csum ts addr (len + 1)) s = .next v ∧ u.acc = v.acc ∧ u.av = v.av

/-- R161: the empty buffer gives `RES0 = 0` and `ACC = cfg.INIT`, the same as `CINIT` followed by `CFIN`. -/
def Obligations.EmptyBufferChecksum : Prop :=
  ∀ (s : State) (ts : Slot) (addr : Word) (x : Table), s.fault = false → s.slot ts = some x →
    addr.toNat ≤ s.cfg.memSize →
      exec (.csum ts addr 0) s = .next { s with acc := s.cfg.init, av := true, res0 := 0 } ∧
        ∃ t, exec .cinit s = .next t ∧ exec .cfin t = exec (.csum ts addr 0) s

/-- R130: `CROLL` takes one byte-step with the entering byte and adds the rolling entry of the leaving byte. -/
def Obligations.CrollRollsOneByte : Prop :=
  ∀ (s : State) (tb tr : Slot) (bin bout : Byte) (x y : Table), s.fault = false → s.slot tb = some x →
    s.slot tr = some y → s.av = true →
      exec (.croll tb tr bin bout) s =
        .next { s with acc := x.entry (s.acc.setWidth 8 ^^^ bin) ^^^ (s.acc >>> 8) ^^^ y.entry bout }

/-- R130, corner case: with the all-zero rolling table `CROLL` is `CUPD`, whatever the leaving byte. -/
def Obligations.CrollWithZeroTableIsCupd : Prop :=
  ∀ (s : State) (tb tr : Slot) (bin bout : Byte) (x y : Table), s.slot tb = some x → s.slot tr = some y →
    (∀ i, y.entry i = 0) → exec (.croll tb tr bin bout) s = exec (.cupd tb bin) s

/-- R131: `ROLLVFY` succeeds when the direct and the incremental checksum agree at every position `0 .. n`, and else
reports the lowest position at which they differ, which is never 0. -/
def Obligations.RollvfyVerdict : Prop :=
  ∀ (s : State) (tb tr : Slot) (addr n : Word) (x y : Table), s.fault = false → s.slot tb = some x →
    s.slot tr = some y → addr.toNat + s.cfg.w + n.toNat ≤ s.cfg.memSize →
      let direct := fun k => checksum s.cfg x s.mem (addr.toNat + k) s.cfg.w
      let incremental := fun k => finish s.cfg (incrementalState s.cfg x y s.mem addr.toNat k)
      ((∀ k, k ≤ n.toNat → direct k = incremental k) →
        exec (.rollvfy tb tr addr n) s = .next { s with res0 := direct n.toNat, res1 := incremental n.toNat }) ∧
      (∀ k, k ≤ n.toNat → direct k ≠ incremental k → (∀ j, j < k → direct j = incremental j) →
        exec (.rollvfy tb tr addr n) s =
          .next { s with fault := true, cause := .rollMismatch, finfo := BitVec.ofNat 32 k, fval0 := direct k,
                         fval1 := incremental k }) ∧
      direct 0 = incremental 0

/-- R140: `CMPTBL` changes nothing when all 256 entries agree, and else reports the lowest index at which they differ
with both entries. -/
def Obligations.CmptblVerdict : Prop :=
  ∀ (s : State) (ta tb : Slot) (x y : Table), s.fault = false → s.slot ta = some x → s.slot tb = some y →
    ((∀ i, x.entry i = y.entry i) → exec (.cmptbl ta tb) s = .next s) ∧
      ∀ i : Byte, x.entry i ≠ y.entry i → (∀ j, j < i → x.entry j = y.entry j) →
        exec (.cmptbl ta tb) s =
          .next { s with fault := true, cause := .tableMismatch, finfo := i.zext, fval0 := x.entry i,
                         fval1 := y.entry i }

/-- R141: `RDTBL` copies one entry to `RES0`. -/
def Obligations.RdtblReadsEntry : Prop :=
  ∀ (s : State) (ts : Slot) (idx : Byte) (x : Table), s.fault = false → s.slot ts = some x →
    exec (.rdtbl ts idx) s = .next { s with res0 := x.entry idx }

/-! ## The algebra of the data path -/

/-- R100: the bit-round, its linearity and the rule's examples. -/
def Obligations.BitRoundIsLinear : Prop :=
  (∀ poly r : Word, bitRound poly r = if r.getLsbD 0 = true then (r >>> 1) ^^^ poly else r >>> 1) ∧
  (∀ poly a b : Word, bitRound poly (a ^^^ b) = bitRound poly a ^^^ bitRound poly b) ∧
  (∀ poly : Word, bitRound poly 0 = 0) ∧
  bitRound 0xEDB88320 0x00000001 = 0xEDB88320 ∧ bitRound 0xEDB88320 0x00000002 = 0x00000001 ∧
  bitRound 0xEDB88320 0x00000003 = 0xEDB88321 ∧ bitRound 0xEDB88320 0x80000000 = 0x40000000 ∧
  bitRound 0xEDB88320 0xFFFFFFFF = 0x92477CDF ∧ bitRound 0xEDB88320 0xEDB88320 = 0x76DC4190

/-- R118, R154: over a linear table the byte-step is linear in the state and the byte together, and splits into the
zero-byte step and the byte's entry; over the reference table the zero-byte step is eight bit-rounds and commutes with
the bit-round. -/
def Obligations.EngineIsLinear : Prop :=
  (∀ x : Table, x.Linear →
    (∀ s1 s2 b1 b2, update x (s1 ^^^ s2) (b1 ^^^ b2) = update x s1 b1 ^^^ update x s2 b2) ∧
      (∀ s1 s2, update x (s1 ^^^ s2) 0 = update x s1 0 ^^^ update x s2 0) ∧
      ∀ s b, update x s b = update x s 0 ^^^ x.entry b) ∧
  ∀ poly s : Word,
    update (referenceTable poly) s 0 = bitRounds poly 8 s ∧
      update (referenceTable poly) (bitRound poly s) 0 = bitRound poly (update (referenceTable poly) s 0)

/-- R150: entry zero is 0 in every reference, doubling and fast rolling table, and in a slow rolling table when
`cfg.INIT = 0` and entry zero of its source is 0. -/
def Obligations.EntryZeroIsZero : Prop :=
  (∀ poly : Word, (referenceTable poly).entry 0 = 0) ∧ (∀ poly seed : Word, (doubling poly seed).entry 0 = 0) ∧
    (∀ (c : Cfg) (x : Table), (fastRollingTable c x).entry 0 = 0) ∧
    ∀ (c : Cfg) (x : Table), c.init = 0 → x.entry 0 = 0 → (rollingTable c x).entry 0 = 0

/-- R151: a table is linear exactly when it satisfies the doubling invariant. -/
def Obligations.DoublingInvariantIsLinearity : Prop :=
  ∀ x : Table, x.Linear ↔
    ∀ k j, k < 8 → j < 2 ^ k →
      x.entry (BitVec.ofNat 8 (2 ^ k + j)) = x.entry (BitVec.ofNat 8 (2 ^ k)) ^^^ x.entry (BitVec.ofNat 8 j)

/-- R153, R156: which tables are linear, and the closed form of the slow rolling table over a linear base table. -/
def Obligations.WhichTablesAreLinear : Prop :=
  (∀ poly : Word, (referenceTable poly).Linear) ∧ (∀ poly seed : Word, (doubling poly seed).Linear) ∧
    (∀ (c : Cfg) (x : Table), (fastRollingTable c x).Linear) ∧
    ∀ (c : Cfg) (x : Table), x.Linear →
      (∀ b, (rollingTable c x).entry b = zeroUpdates x c.w (x.entry b) ^^^ rollConstant c x) ∧
        (c.init = 0 → rollConstant c x = 0) ∧ (update x c.init 0 = c.init → rollConstant c x = 0) ∧
        ((rollingTable c x).Linear ↔ rollConstant c x = 0)

/-- R155: over a linear table each byte of a buffer contributes on its own, shifted by the number of bytes after it. -/
def Obligations.FoldClosedForm : Prop :=
  ∀ (c : Cfg) (x : Table) (m : Memory) (addr n : Nat), x.Linear →
    fold c x m addr n =
      (List.range n).foldl (fun acc k => acc ^^^ zeroUpdates x (n - 1 - k) (x.entry (m.read (addr + k))))
        (zeroUpdates x n c.init)

/-- R152: for every polynomial the doubling table of the seed `cfg.POLY` is the reference table, so `CMPTBL` of slots
that hold the two does not fault (that `BLDREF` and `BLDDBL` leave them there is
`Obligations.BldrefBuildsReferenceTable` and `Obligations.BlddblBuildsDoublingTable`); with this
hardware's polynomial entry 1 is the source's value. -/
def Obligations.ReferenceEqualsDoubling : Prop :=
  (∀ poly : Word, referenceTable poly = doubling poly poly) ∧
  (∀ (s : State) (ta tb : Slot), s.fault = false → s.slot ta = some (referenceTable s.cfg.poly) →
    s.slot tb = some (doubling s.cfg.poly s.cfg.poly) → exec (.cmptbl ta tb) s = .next s) ∧
  (referenceTable 0xEDB88320).entry 1 = 0x77073096 ∧ (doubling 0xEDB88320 0xEDB88320).entry 1 = 0x77073096

/-- R157: over every linear base table, for every memory, every `cfg.INIT` and every `cfg.W`, the rolling step with the
slow rolling table moves the raw state of a window to that of the next window, so `CROLL` tracks the windows and
`ROLLVFY` never reports a mismatch. -/
def Obligations.RollingEquivalence : Prop :=
  (∀ (c : Cfg) (x : Table) (m : Memory) (addr : Nat), x.Linear →
    update x (fold c x m addr c.w) (m.read (addr + c.w)) ^^^ (rollingTable c x).entry (m.read addr) =
      fold c x m (addr + 1) c.w) ∧
  (∀ (s : State) (tb tr : Slot) (x : Table) (addr : Nat), s.fault = false → s.slot tb = some x → x.Linear →
    s.slot tr = some (rollingTable s.cfg x) → s.av = true → s.acc = fold s.cfg x s.mem addr s.cfg.w →
      exec (.croll tb tr (s.mem.read (addr + s.cfg.w)) (s.mem.read addr)) s =
        .next { s with acc := fold s.cfg x s.mem (addr + 1) s.cfg.w }) ∧
  ∀ (s : State) (tb tr : Slot) (x : Table) (addr n : Word), s.fault = false → s.slot tb = some x → x.Linear →
    s.slot tr = some (rollingTable s.cfg x) → addr.toNat + s.cfg.w + n.toNat ≤ s.cfg.memSize →
      let last := checksum s.cfg x s.mem (addr.toNat + n.toNat) s.cfg.w
      exec (.rollvfy tb tr addr n) s = .next { s with res0 := last, res1 := last }

/-- R158: with `cfg.INIT = 0`, or more generally `K = 0`, the fast rolling table built from the slow one over a base
table for `cfg.POLY` is that slow table, for every polynomial and window size, and `CMPTBL` does not fault. -/
def Obligations.SlowEqualsFastRollingTable : Prop :=
  ∀ (s : State) (tr tf : Slot) (x : Table), s.fault = false →
    (x = referenceTable s.cfg.poly ∨ x = doubling s.cfg.poly s.cfg.poly) →
    (s.cfg.init = 0 ∨ rollConstant s.cfg x = 0) →
    s.slot tr = some (rollingTable s.cfg x) → s.slot tf = some (fastRollingTable s.cfg (rollingTable s.cfg x)) →
      fastRollingTable s.cfg (rollingTable s.cfg x) = rollingTable s.cfg x ∧ exec (.cmptbl tr tf) s = .next s

/-- R159 (a), (b): when `K` is not 0 the slow rolling table has entry 0 equal to `K` and is not linear, and `CMPTBL` of
it with the fast table built from it reports index 0 with `K` and 0. -/
def Obligations.FastTableFailsForNonzeroConstant : Prop :=
  ∀ (s : State) (tr tf : Slot) (x : Table), s.fault = false → x.Linear → rollConstant s.cfg x ≠ 0 →
    s.slot tr = some (rollingTable s.cfg x) → s.slot tf = some (fastRollingTable s.cfg (rollingTable s.cfg x)) →
      (rollingTable s.cfg x).entry 0 = rollConstant s.cfg x ∧ ¬ (rollingTable s.cfg x).Linear ∧
        exec (.cmptbl tr tf) s =
          .next { s with fault := true, cause := .tableMismatch, finfo := 0, fval0 := rollConstant s.cfg x,
                         fval1 := 0 }

/-! ## What a result depends on -/

/-- R160: a build's table depends only on `cfg`, the operands and the content of the source slot: two builds into free
slots of two states that agree on these install the same table. -/
def Obligations.BuildsDependOnlyOnTheirInputs : Prop :=
  ∀ (s1 s2 : State) (d1 d2 : Slot), s1.cfg = s2.cfg → s1.fault = false → s2.fault = false → s1.slot d1 = none →
    s2.slot d2 = none →
      let sameTable := fun i1 i2 : Instr =>
        ∃ x : Table, exec i1 s1 = .next { s1 with tbl := s1.tbl.set d1.val (some x) d1.isLt } ∧
          exec i2 s2 = .next { s2 with tbl := s2.tbl.set d2.val (some x) d2.isLt }
      sameTable (.bldref d1) (.bldref d2) ∧ (∀ seed, sameTable (.blddbl d1 seed) (.blddbl d2 seed)) ∧
        ∀ (t1 t2 : Slot) (y : Table), s1.slot t1 = some y → s2.slot t2 = some y →
          sameTable (.bldrslow d1 t1) (.bldrslow d2 t2) ∧ sameTable (.bldrfast d1 t1) (.bldrfast d2 t2)

/-- R160: two `CSUM` over the same table content and the same buffer bytes give the same `ACC` and `RES0`, whatever
else differs. -/
def Obligations.CsumDependsOnlyOnTableAndBuffer : Prop :=
  ∀ (s1 s2 : State) (t1 t2 : Slot) (x : Table) (addr len : Word), s1.cfg = s2.cfg → s1.fault = false →
    s2.fault = false → s1.slot t1 = some x → s2.slot t2 = some x → addr.toNat + len.toNat ≤ s1.cfg.memSize →
    (∀ k, k < len.toNat → s1.mem.read (addr.toNat + k) = s2.mem.read (addr.toNat + k)) →
      ∃ u1 u2, exec (.csum t1 addr len) s1 = .next u1 ∧ exec (.csum t2 addr len) s2 = .next u2 ∧ u1.acc = u2.acc ∧
        u1.res0 = u2.res0

/-- R162: the two mismatches are the only faults whose occurrence depends on table or buffer content: of two states
with the same configuration and the same flags, if one command faults in one of them with another cause, it faults in
the other with the same cause and the same fault registers. -/
def Obligations.OnlyMismatchFaultsDependOnData : Prop :=
  ∀ (i : Instr) (s1 s2 t1 t2 : State), s1.cfg = s2.cfg → s1.fault = false → s2.fault = false → s1.av = s2.av →
    (∀ u, s1.tv u = s2.tv u) → exec i s1 = .next t1 → exec i s2 = .next t2 → t1.fault = true →
    t1.cause ≠ .tableMismatch → t1.cause ≠ .rollMismatch →
      t2.fault = true ∧ t2.cause = t1.cause ∧ t2.finfo = t1.finfo ∧ t2.fval0 = t1.fval0 ∧ t2.fval1 = t1.fval1
end

