-- ==== Sys2Proof/Laws/State.lean ====
section
/-! SUPPORT. One lemma per field per state update, each true by `rfl`, so that no later proof unfolds a record update;
and what each update does to the slots. -/

namespace Sys2Proof.Machine

@[simp] theorem State.installTable_cfg (s : State) (t : Slot) (x : Table) : (s.installTable t x).cfg = s.cfg := rfl
@[simp] theorem State.installTable_tbl (s : State) (t : Slot) (x : Table) : (s.installTable t x).tbl = s.tbl.set t.val (some x) t.isLt := rfl
@[simp] theorem State.installTable_acc (s : State) (t : Slot) (x : Table) : (s.installTable t x).acc = s.acc := rfl
@[simp] theorem State.installTable_av (s : State) (t : Slot) (x : Table) : (s.installTable t x).av = s.av := rfl
@[simp] theorem State.installTable_res0 (s : State) (t : Slot) (x : Table) : (s.installTable t x).res0 = s.res0 := rfl
@[simp] theorem State.installTable_res1 (s : State) (t : Slot) (x : Table) : (s.installTable t x).res1 = s.res1 := rfl
@[simp] theorem State.installTable_fault (s : State) (t : Slot) (x : Table) : (s.installTable t x).fault = s.fault := rfl
@[simp] theorem State.installTable_cause (s : State) (t : Slot) (x : Table) : (s.installTable t x).cause = s.cause := rfl
@[simp] theorem State.installTable_finfo (s : State) (t : Slot) (x : Table) : (s.installTable t x).finfo = s.finfo := rfl
@[simp] theorem State.installTable_fval0 (s : State) (t : Slot) (x : Table) : (s.installTable t x).fval0 = s.fval0 := rfl
@[simp] theorem State.installTable_fval1 (s : State) (t : Slot) (x : Table) : (s.installTable t x).fval1 = s.fval1 := rfl
@[simp] theorem State.installTable_mem (s : State) (t : Slot) (x : Table) : (s.installTable t x).mem = s.mem := rfl
@[simp] theorem State.installTable_pending (s : State) (t : Slot) (x : Table) : (s.installTable t x).pending = s.pending := rfl
@[simp] theorem State.installTable_replies (s : State) (t : Slot) (x : Table) : (s.installTable t x).replies = s.replies := rfl
@[simp] theorem State.installTable_slot (s : State) (t u : Slot) (x : Table) :
    (s.installTable t x).slot u = if u = t then some x else s.slot u := by
  by_cases h : u = t
  · subst h
    simp [State.slot]
  · have : t.val ≠ u.val := fun e => h (Fin.ext e.symm)
    simp [State.slot, h, this]

@[simp] theorem State.setAcc_cfg (s : State) (v : Word) : (s.setAcc v).cfg = s.cfg := rfl
@[simp] theorem State.setAcc_tbl (s : State) (v : Word) : (s.setAcc v).tbl = s.tbl := rfl
@[simp] theorem State.setAcc_acc (s : State) (v : Word) : (s.setAcc v).acc = v := rfl
@[simp] theorem State.setAcc_av (s : State) (v : Word) : (s.setAcc v).av = s.av := rfl
@[simp] theorem State.setAcc_res0 (s : State) (v : Word) : (s.setAcc v).res0 = s.res0 := rfl
@[simp] theorem State.setAcc_res1 (s : State) (v : Word) : (s.setAcc v).res1 = s.res1 := rfl
@[simp] theorem State.setAcc_fault (s : State) (v : Word) : (s.setAcc v).fault = s.fault := rfl
@[simp] theorem State.setAcc_cause (s : State) (v : Word) : (s.setAcc v).cause = s.cause := rfl
@[simp] theorem State.setAcc_finfo (s : State) (v : Word) : (s.setAcc v).finfo = s.finfo := rfl
@[simp] theorem State.setAcc_fval0 (s : State) (v : Word) : (s.setAcc v).fval0 = s.fval0 := rfl
@[simp] theorem State.setAcc_fval1 (s : State) (v : Word) : (s.setAcc v).fval1 = s.fval1 := rfl
@[simp] theorem State.setAcc_mem (s : State) (v : Word) : (s.setAcc v).mem = s.mem := rfl
@[simp] theorem State.setAcc_pending (s : State) (v : Word) : (s.setAcc v).pending = s.pending := rfl
@[simp] theorem State.setAcc_replies (s : State) (v : Word) : (s.setAcc v).replies = s.replies := rfl
@[simp] theorem State.setAcc_slot (s : State) (v : Word) (u : Slot) : (s.setAcc v).slot u = s.slot u := rfl

@[simp] theorem State.startAcc_cfg (s : State) (v : Word) : (s.startAcc v).cfg = s.cfg := rfl
@[simp] theorem State.startAcc_tbl (s : State) (v : Word) : (s.startAcc v).tbl = s.tbl := rfl
@[simp] theorem State.startAcc_acc (s : State) (v : Word) : (s.startAcc v).acc = v := rfl
@[simp] theorem State.startAcc_av (s : State) (v : Word) : (s.startAcc v).av = true := rfl
@[simp] theorem State.startAcc_res0 (s : State) (v : Word) : (s.startAcc v).res0 = s.res0 := rfl
@[simp] theorem State.startAcc_res1 (s : State) (v : Word) : (s.startAcc v).res1 = s.res1 := rfl
@[simp] theorem State.startAcc_fault (s : State) (v : Word) : (s.startAcc v).fault = s.fault := rfl
@[simp] theorem State.startAcc_cause (s : State) (v : Word) : (s.startAcc v).cause = s.cause := rfl
@[simp] theorem State.startAcc_finfo (s : State) (v : Word) : (s.startAcc v).finfo = s.finfo := rfl
@[simp] theorem State.startAcc_fval0 (s : State) (v : Word) : (s.startAcc v).fval0 = s.fval0 := rfl
@[simp] theorem State.startAcc_fval1 (s : State) (v : Word) : (s.startAcc v).fval1 = s.fval1 := rfl
@[simp] theorem State.startAcc_mem (s : State) (v : Word) : (s.startAcc v).mem = s.mem := rfl
@[simp] theorem State.startAcc_pending (s : State) (v : Word) : (s.startAcc v).pending = s.pending := rfl
@[simp] theorem State.startAcc_replies (s : State) (v : Word) : (s.startAcc v).replies = s.replies := rfl
@[simp] theorem State.startAcc_slot (s : State) (v : Word) (u : Slot) : (s.startAcc v).slot u = s.slot u := rfl

@[simp] theorem State.setRes0_cfg (s : State) (v : Word) : (s.setRes0 v).cfg = s.cfg := rfl
@[simp] theorem State.setRes0_tbl (s : State) (v : Word) : (s.setRes0 v).tbl = s.tbl := rfl
@[simp] theorem State.setRes0_acc (s : State) (v : Word) : (s.setRes0 v).acc = s.acc := rfl
@[simp] theorem State.setRes0_av (s : State) (v : Word) : (s.setRes0 v).av = s.av := rfl
@[simp] theorem State.setRes0_res0 (s : State) (v : Word) : (s.setRes0 v).res0 = v := rfl
@[simp] theorem State.setRes0_res1 (s : State) (v : Word) : (s.setRes0 v).res1 = s.res1 := rfl
@[simp] theorem State.setRes0_fault (s : State) (v : Word) : (s.setRes0 v).fault = s.fault := rfl
@[simp] theorem State.setRes0_cause (s : State) (v : Word) : (s.setRes0 v).cause = s.cause := rfl
@[simp] theorem State.setRes0_finfo (s : State) (v : Word) : (s.setRes0 v).finfo = s.finfo := rfl
@[simp] theorem State.setRes0_fval0 (s : State) (v : Word) : (s.setRes0 v).fval0 = s.fval0 := rfl
@[simp] theorem State.setRes0_fval1 (s : State) (v : Word) : (s.setRes0 v).fval1 = s.fval1 := rfl
@[simp] theorem State.setRes0_mem (s : State) (v : Word) : (s.setRes0 v).mem = s.mem := rfl
@[simp] theorem State.setRes0_pending (s : State) (v : Word) : (s.setRes0 v).pending = s.pending := rfl
@[simp] theorem State.setRes0_replies (s : State) (v : Word) : (s.setRes0 v).replies = s.replies := rfl
@[simp] theorem State.setRes0_slot (s : State) (v : Word) (u : Slot) : (s.setRes0 v).slot u = s.slot u := rfl

@[simp] theorem State.setRes1_cfg (s : State) (v : Word) : (s.setRes1 v).cfg = s.cfg := rfl
@[simp] theorem State.setRes1_tbl (s : State) (v : Word) : (s.setRes1 v).tbl = s.tbl := rfl
@[simp] theorem State.setRes1_acc (s : State) (v : Word) : (s.setRes1 v).acc = s.acc := rfl
@[simp] theorem State.setRes1_av (s : State) (v : Word) : (s.setRes1 v).av = s.av := rfl
@[simp] theorem State.setRes1_res0 (s : State) (v : Word) : (s.setRes1 v).res0 = s.res0 := rfl
@[simp] theorem State.setRes1_res1 (s : State) (v : Word) : (s.setRes1 v).res1 = v := rfl
@[simp] theorem State.setRes1_fault (s : State) (v : Word) : (s.setRes1 v).fault = s.fault := rfl
@[simp] theorem State.setRes1_cause (s : State) (v : Word) : (s.setRes1 v).cause = s.cause := rfl
@[simp] theorem State.setRes1_finfo (s : State) (v : Word) : (s.setRes1 v).finfo = s.finfo := rfl
@[simp] theorem State.setRes1_fval0 (s : State) (v : Word) : (s.setRes1 v).fval0 = s.fval0 := rfl
@[simp] theorem State.setRes1_fval1 (s : State) (v : Word) : (s.setRes1 v).fval1 = s.fval1 := rfl
@[simp] theorem State.setRes1_mem (s : State) (v : Word) : (s.setRes1 v).mem = s.mem := rfl
@[simp] theorem State.setRes1_pending (s : State) (v : Word) : (s.setRes1 v).pending = s.pending := rfl
@[simp] theorem State.setRes1_replies (s : State) (v : Word) : (s.setRes1 v).replies = s.replies := rfl
@[simp] theorem State.setRes1_slot (s : State) (v : Word) (u : Slot) : (s.setRes1 v).slot u = s.slot u := rfl

@[simp] theorem State.enterFault_cfg (s : State) (f : FaultReport) : (s.enterFault f).cfg = s.cfg := rfl
@[simp] theorem State.enterFault_tbl (s : State) (f : FaultReport) : (s.enterFault f).tbl = s.tbl := rfl
@[simp] theorem State.enterFault_acc (s : State) (f : FaultReport) : (s.enterFault f).acc = s.acc := rfl
@[simp] theorem State.enterFault_av (s : State) (f : FaultReport) : (s.enterFault f).av = s.av := rfl
@[simp] theorem State.enterFault_res0 (s : State) (f : FaultReport) : (s.enterFault f).res0 = s.res0 := rfl
@[simp] theorem State.enterFault_res1 (s : State) (f : FaultReport) : (s.enterFault f).res1 = s.res1 := rfl
@[simp] theorem State.enterFault_fault (s : State) (f : FaultReport) : (s.enterFault f).fault = true := rfl
@[simp] theorem State.enterFault_cause (s : State) (f : FaultReport) : (s.enterFault f).cause = f.cause := rfl
@[simp] theorem State.enterFault_finfo (s : State) (f : FaultReport) : (s.enterFault f).finfo = f.info := rfl
@[simp] theorem State.enterFault_fval0 (s : State) (f : FaultReport) : (s.enterFault f).fval0 = f.v0 := rfl
@[simp] theorem State.enterFault_fval1 (s : State) (f : FaultReport) : (s.enterFault f).fval1 = f.v1 := rfl
@[simp] theorem State.enterFault_mem (s : State) (f : FaultReport) : (s.enterFault f).mem = s.mem := rfl
@[simp] theorem State.enterFault_pending (s : State) (f : FaultReport) : (s.enterFault f).pending = s.pending := rfl
@[simp] theorem State.enterFault_replies (s : State) (f : FaultReport) : (s.enterFault f).replies = s.replies := rfl
@[simp] theorem State.enterFault_slot (s : State) (f : FaultReport) (u : Slot) : (s.enterFault f).slot u = s.slot u := rfl

@[simp] theorem State.resetBlock_cfg (s : State) : (s.resetBlock).cfg = s.cfg := rfl
@[simp] theorem State.resetBlock_tbl (s : State) : (s.resetBlock).tbl = #v[none, none, none, none] := rfl
@[simp] theorem State.resetBlock_acc (s : State) : (s.resetBlock).acc = 0 := rfl
@[simp] theorem State.resetBlock_av (s : State) : (s.resetBlock).av = false := rfl
@[simp] theorem State.resetBlock_res0 (s : State) : (s.resetBlock).res0 = 0 := rfl
@[simp] theorem State.resetBlock_res1 (s : State) : (s.resetBlock).res1 = 0 := rfl
@[simp] theorem State.resetBlock_fault (s : State) : (s.resetBlock).fault = false := rfl
@[simp] theorem State.resetBlock_cause (s : State) : (s.resetBlock).cause = .none := rfl
@[simp] theorem State.resetBlock_finfo (s : State) : (s.resetBlock).finfo = 0 := rfl
@[simp] theorem State.resetBlock_fval0 (s : State) : (s.resetBlock).fval0 = 0 := rfl
@[simp] theorem State.resetBlock_fval1 (s : State) : (s.resetBlock).fval1 = 0 := rfl
@[simp] theorem State.resetBlock_mem (s : State) : (s.resetBlock).mem = s.mem := rfl
@[simp] theorem State.resetBlock_pending (s : State) : (s.resetBlock).pending = s.pending := rfl
@[simp] theorem State.resetBlock_replies (s : State) : (s.resetBlock).replies = s.replies := rfl
@[simp] theorem State.resetBlock_slot (s : State) (u : Slot) : s.resetBlock.slot u = none := by
  fin_cases u <;> rfl

@[simp] theorem State.writeMem_cfg (s : State) (a : Nat) (v : Byte) : (s.writeMem a v).cfg = s.cfg := rfl
@[simp] theorem State.writeMem_tbl (s : State) (a : Nat) (v : Byte) : (s.writeMem a v).tbl = s.tbl := rfl
@[simp] theorem State.writeMem_acc (s : State) (a : Nat) (v : Byte) : (s.writeMem a v).acc = s.acc := rfl
@[simp] theorem State.writeMem_av (s : State) (a : Nat) (v : Byte) : (s.writeMem a v).av = s.av := rfl
@[simp] theorem State.writeMem_res0 (s : State) (a : Nat) (v : Byte) : (s.writeMem a v).res0 = s.res0 := rfl
@[simp] theorem State.writeMem_res1 (s : State) (a : Nat) (v : Byte) : (s.writeMem a v).res1 = s.res1 := rfl
@[simp] theorem State.writeMem_fault (s : State) (a : Nat) (v : Byte) : (s.writeMem a v).fault = s.fault := rfl
@[simp] theorem State.writeMem_cause (s : State) (a : Nat) (v : Byte) : (s.writeMem a v).cause = s.cause := rfl
@[simp] theorem State.writeMem_finfo (s : State) (a : Nat) (v : Byte) : (s.writeMem a v).finfo = s.finfo := rfl
@[simp] theorem State.writeMem_fval0 (s : State) (a : Nat) (v : Byte) : (s.writeMem a v).fval0 = s.fval0 := rfl
@[simp] theorem State.writeMem_fval1 (s : State) (a : Nat) (v : Byte) : (s.writeMem a v).fval1 = s.fval1 := rfl
@[simp] theorem State.writeMem_mem (s : State) (a : Nat) (v : Byte) : (s.writeMem a v).mem = s.mem.write a v := rfl
@[simp] theorem State.writeMem_pending (s : State) (a : Nat) (v : Byte) : (s.writeMem a v).pending = s.pending := rfl
@[simp] theorem State.writeMem_replies (s : State) (a : Nat) (v : Byte) : (s.writeMem a v).replies = s.replies := rfl
@[simp] theorem State.writeMem_slot (s : State) (a : Nat) (v : Byte) (u : Slot) : (s.writeMem a v).slot u = s.slot u := rfl

@[simp] theorem State.setPending_cfg (s : State) (actions : List HostAction) : (s.setPending actions).cfg = s.cfg := rfl
@[simp] theorem State.setPending_tbl (s : State) (actions : List HostAction) : (s.setPending actions).tbl = s.tbl := rfl
@[simp] theorem State.setPending_acc (s : State) (actions : List HostAction) : (s.setPending actions).acc = s.acc := rfl
@[simp] theorem State.setPending_av (s : State) (actions : List HostAction) : (s.setPending actions).av = s.av := rfl
@[simp] theorem State.setPending_res0 (s : State) (actions : List HostAction) : (s.setPending actions).res0 = s.res0 := rfl
@[simp] theorem State.setPending_res1 (s : State) (actions : List HostAction) : (s.setPending actions).res1 = s.res1 := rfl
@[simp] theorem State.setPending_fault (s : State) (actions : List HostAction) : (s.setPending actions).fault = s.fault := rfl
@[simp] theorem State.setPending_cause (s : State) (actions : List HostAction) : (s.setPending actions).cause = s.cause := rfl
@[simp] theorem State.setPending_finfo (s : State) (actions : List HostAction) : (s.setPending actions).finfo = s.finfo := rfl
@[simp] theorem State.setPending_fval0 (s : State) (actions : List HostAction) : (s.setPending actions).fval0 = s.fval0 := rfl
@[simp] theorem State.setPending_fval1 (s : State) (actions : List HostAction) : (s.setPending actions).fval1 = s.fval1 := rfl
@[simp] theorem State.setPending_mem (s : State) (actions : List HostAction) : (s.setPending actions).mem = s.mem := rfl
@[simp] theorem State.setPending_pending (s : State) (actions : List HostAction) : (s.setPending actions).pending = actions := rfl
@[simp] theorem State.setPending_replies (s : State) (actions : List HostAction) : (s.setPending actions).replies = s.replies := rfl
@[simp] theorem State.setPending_slot (s : State) (actions : List HostAction) (u : Slot) : (s.setPending actions).slot u = s.slot u := rfl

@[simp] theorem State.reply_cfg (s : State) (r : Reply) : (s.reply r).cfg = s.cfg := rfl
@[simp] theorem State.reply_tbl (s : State) (r : Reply) : (s.reply r).tbl = s.tbl := rfl
@[simp] theorem State.reply_acc (s : State) (r : Reply) : (s.reply r).acc = s.acc := rfl
@[simp] theorem State.reply_av (s : State) (r : Reply) : (s.reply r).av = s.av := rfl
@[simp] theorem State.reply_res0 (s : State) (r : Reply) : (s.reply r).res0 = s.res0 := rfl
@[simp] theorem State.reply_res1 (s : State) (r : Reply) : (s.reply r).res1 = s.res1 := rfl
@[simp] theorem State.reply_fault (s : State) (r : Reply) : (s.reply r).fault = s.fault := rfl
@[simp] theorem State.reply_cause (s : State) (r : Reply) : (s.reply r).cause = s.cause := rfl
@[simp] theorem State.reply_finfo (s : State) (r : Reply) : (s.reply r).finfo = s.finfo := rfl
@[simp] theorem State.reply_fval0 (s : State) (r : Reply) : (s.reply r).fval0 = s.fval0 := rfl
@[simp] theorem State.reply_fval1 (s : State) (r : Reply) : (s.reply r).fval1 = s.fval1 := rfl
@[simp] theorem State.reply_mem (s : State) (r : Reply) : (s.reply r).mem = s.mem := rfl
@[simp] theorem State.reply_pending (s : State) (r : Reply) : (s.reply r).pending = s.pending := rfl
@[simp] theorem State.reply_replies (s : State) (r : Reply) : (s.reply r).replies = r :: s.replies := rfl
@[simp] theorem State.reply_slot (s : State) (r : Reply) (u : Slot) : (s.reply r).slot u = s.slot u := rfl

/-- After reset no slot is built (R22). -/
@[simp] theorem State.reset_slot (u : Slot) : State.reset.slot u = none := by
  fin_cases u <;> rfl

/-- Two states with the same slots have the same table file. -/
theorem State.tbl_eq_of_slot_eq {s t : State} (h : ∀ u, s.slot u = t.slot u) : s.tbl = t.tbl := by
  apply Vector.ext
  intro i hi
  exact h ⟨i, hi⟩

end Sys2Proof.Machine
end

