-- ==== Sys2Proof/Laws/Command.lean ====
section
/-! SUPPORT. What each shared operation of a command can answer: the operand checks and the running of an accepted
command. -/

namespace Sys2Proof.Machine

theorem sourceTable_of_some {s : State} {t : Slot} {x : Table} (h : s.slot t = some x) : sourceTable s t = .ok x := by
  simp [sourceTable, h]

theorem sourceTable_of_none {s : State} {t : Slot} (h : s.slot t = none) :
    sourceTable s t = .error ⟨.tableInvalid, slotWord t, 0, 0⟩ := by
  simp [sourceTable, h]

theorem destinationFree_of_none {s : State} {t : Slot} (h : s.slot t = none) : destinationFree s t = .ok () := by
  simp [destinationFree, h]

theorem destinationFree_of_some {s : State} {t : Slot} {x : Table} (h : s.slot t = some x) :
    destinationFree s t = .error ⟨.tableLocked, slotWord t, 0, 0⟩ := by
  simp [destinationFree, h]

theorem accumulator_of_valid {s : State} (h : s.av = true) : accumulator s = .ok s.acc := by
  simp [accumulator, h]

theorem accumulator_of_invalid {s : State} (h : s.av = false) :
    accumulator s = .error ⟨.accInvalid, 0, 0, 0⟩ := by
  simp [accumulator, h]

theorem bufferInside_of_le {s : State} {a0 a1 : Word} {n : Nat} (h : a0.toNat + n ≤ s.cfg.memSize) :
    bufferInside s a0 a1 n = .ok () := by
  simp [bufferInside, h]

theorem bufferInside_of_not_le {s : State} {a0 a1 : Word} {n : Nat} (h : ¬ a0.toNat + n ≤ s.cfg.memSize) :
    bufferInside s a0 a1 n = .error ⟨.range, 0, a0, a1⟩ := by
  simp [bufferInside, h]

/-- A source slot answers its table or TABLE_INVALID. -/
theorem sourceTable_cases (s : State) (t : Slot) :
    (∃ x, s.slot t = some x ∧ sourceTable s t = .ok x) ∨
      (s.slot t = none ∧ sourceTable s t = .error ⟨.tableInvalid, slotWord t, 0, 0⟩) := by
  cases h : s.slot t with
  | none => exact .inr ⟨rfl, sourceTable_of_none h⟩
  | some x => exact .inl ⟨x, rfl, sourceTable_of_some h⟩

/-- A destination slot is free or answers TABLE_LOCKED. -/
theorem destinationFree_cases (s : State) (t : Slot) :
    (s.slot t = none ∧ destinationFree s t = .ok ()) ∨
      (∃ x, s.slot t = some x ∧ destinationFree s t = .error ⟨.tableLocked, slotWord t, 0, 0⟩) := by
  cases h : s.slot t with
  | none => exact .inl ⟨rfl, destinationFree_of_none h⟩
  | some x => exact .inr ⟨x, rfl, destinationFree_of_some h⟩

/-- The accumulator answers its raw state or ACC_INVALID. -/
theorem accumulator_cases (s : State) :
    (s.av = true ∧ accumulator s = .ok s.acc) ∨ (s.av = false ∧ accumulator s = .error ⟨.accInvalid, 0, 0, 0⟩) := by
  cases h : s.av with
  | true => exact .inl ⟨rfl, accumulator_of_valid h⟩
  | false => exact .inr ⟨rfl, accumulator_of_invalid h⟩

/-- A buffer lies in `MEM` or the check answers RANGE. -/
theorem bufferInside_cases (s : State) (a0 a1 : Word) (n : Nat) :
    (a0.toNat + n ≤ s.cfg.memSize ∧ bufferInside s a0 a1 n = .ok ()) ∨
      (¬ a0.toNat + n ≤ s.cfg.memSize ∧ bufferInside s a0 a1 n = .error ⟨.range, 0, a0, a1⟩) := by
  by_cases h : a0.toNat + n ≤ s.cfg.memSize
  · exact .inl ⟨h, bufferInside_of_le h⟩
  · exact .inr ⟨h, bufferInside_of_not_le h⟩

/-- R173: with `FAULT = 1` a command is discarded. -/
theorem command_of_fault {s : State} (h : s.fault = true) (r : Except FaultReport State) : command s r = .next s := by
  simp [command, h]

theorem command_ok {s t : State} (h : s.fault = false) : command s (.ok t) = .next t := by
  simp [command, h]

/-- R172: a fault drops every write of the command. -/
theorem command_error {s : State} {f : FaultReport} (h : s.fault = false) :
    command s (.error f) = .next (s.enterFault f) := by
  simp [command, h]

/-- Everything a command can do. -/
theorem command_cases {s t : State} {r : Except FaultReport State} (h : command s r = .next t) :
    (s.fault = true ∧ t = s) ∨ (s.fault = false ∧ r = .ok t) ∨
      (s.fault = false ∧ ∃ f, r = .error f ∧ t = s.enterFault f) := by
  cases hf : s.fault with
  | true => rw [command_of_fault hf] at h; cases h; exact .inl ⟨rfl, rfl⟩
  | false =>
    cases r with
    | ok u => rw [command_ok hf] at h; cases h; exact .inr (.inl ⟨rfl, rfl⟩)
    | error f => rw [command_error hf] at h; cases h; exact .inr (.inr ⟨rfl, f, rfl, rfl⟩)

/-- A command always answers a next state (R82). -/
theorem command_next (s : State) (r : Except FaultReport State) : ∃ t, command s r = .next t := by
  cases hf : s.fault with
  | true => exact ⟨s, command_of_fault hf r⟩
  | false =>
    cases r with
    | ok u => exact ⟨u, command_ok hf⟩
    | error f => exact ⟨_, command_error hf⟩

end Sys2Proof.Machine
end

