-- ==== Sys2Proof/Laws/Memory.lean ====
section
/-! SUPPORT. The laws of the buffer memory: what a read gives after a write, and that a write keeps the canonical form
and the bounds. -/

namespace Sys2Proof.Machine

theorem Memory.read_below {m : Memory} {a : Nat} (h : m.all (fun c => decide (a < c.1)) = true) :
    m.read a = Memory.unlisted := by
  induction m with
  | nil => rfl
  | cons c rest ih =>
    obtain ⟨k, v⟩ := c
    simp only [List.all_cons, Bool.and_eq_true, decide_eq_true_eq] at h
    have : k ≠ a := by omega
    simp [Memory.read, this, ih h.2]

theorem Memory.wf_cons {k : Nat} {v : Byte} {rest : Memory} :
    Memory.wf ((k, v) :: rest) = true ↔
      v ≠ Memory.unlisted ∧ rest.all (fun c => decide (k < c.1)) = true ∧ rest.wf = true := by
  simp [Memory.wf, and_assoc]

theorem Memory.all_lt_trans {m : Memory} {a k : Nat} (hak : a < k)
    (h : m.all (fun c => decide (k < c.1)) = true) : m.all (fun c => decide (a < c.1)) = true := by
  simp only [List.all_eq_true, decide_eq_true_eq] at h ⊢
  intro c hc
  exact lt_trans hak (h c hc)

/-- R60: a read returns the most recent write, and a write leaves every other byte alone. -/
theorem Memory.read_write {m : Memory} (hm : m.wf = true) (a b : Nat) (v : Byte) :
    (m.write a v).read b = if b = a then v else m.read b := by
  induction m with
  | nil =>
    by_cases hv : v = Memory.unlisted <;> by_cases hb : a = b <;> simp [Memory.write, Memory.read, hv, hb, eq_comm]
  | cons c rest ih =>
    obtain ⟨k, w⟩ := c
    rw [Memory.wf_cons] at hm
    obtain ⟨-, hlt, hrest⟩ := hm
    have ih := ih hrest
    rcases lt_trichotomy a k with hak | hak | hak
    · have hnone := Memory.read_below (m := (k, w) :: rest) (a := a) (by
        simp [hak]
        simpa using Memory.all_lt_trans hak hlt)
      by_cases hb : b = a
      · subst hb
        by_cases hv : v = Memory.unlisted
        · simpa [Memory.write, hak, hv] using hnone
        · simp [Memory.write, hak, hv, Memory.read]
      · have hb' : ¬ a = b := fun e => hb e.symm
        by_cases hv : v = Memory.unlisted <;> simp [Memory.write, hak, hv, Memory.read, hb, hb']
    · subst hak
      have hnone := Memory.read_below hlt
      by_cases hb : b = a
      · subst hb
        by_cases hv : v = Memory.unlisted
        · simpa [Memory.write, hv] using hnone
        · simp [Memory.write, hv, Memory.read]
      · have hb' : ¬ a = b := fun e => hb e.symm
        by_cases hv : v = Memory.unlisted <;> simp [Memory.write, hv, Memory.read, hb, hb']
    · have h1 : ¬ a < k := by omega
      have h2 : ¬ a = k := by omega
      have hw : Memory.write ((k, w) :: rest) a v = (k, w) :: Memory.write rest a v := by
        simp [Memory.write, h1, h2]
      rw [hw]
      by_cases hb : k = b
      · have : ¬ b = a := by omega
        simp [Memory.read, hb, this]
      · simp [Memory.read, hb, ih]

/-- What holds of every listed address holds after a write, if it holds of the address written. -/
theorem Memory.all_write {m : Memory} {p : Nat → Bool} {a : Nat} {v : Byte} (hm : m.all (fun c => p c.1) = true)
    (ha : p a = true) : (m.write a v).all (fun c => p c.1) = true := by
  induction m with
  | nil => by_cases hv : v = Memory.unlisted <;> simp [Memory.write, hv, ha]
  | cons c rest ih =>
    obtain ⟨k, w⟩ := c
    simp only [List.all_cons, Bool.and_eq_true] at hm
    have ih := ih hm.2
    unfold Memory.write
    split_ifs <;> simp only [List.all_cons, hm.1, hm.2, ha, ih, Bool.and_self]

/-- Every memory operation keeps the canonical form. -/
theorem Memory.wf_write {m : Memory} (hm : m.wf = true) (a : Nat) (v : Byte) : (m.write a v).wf = true := by
  induction m with
  | nil => by_cases hv : v = Memory.unlisted <;> simp [Memory.write, Memory.wf, hv]
  | cons c rest ih =>
    obtain ⟨k, w⟩ := c
    have hm' := hm
    rw [Memory.wf_cons] at hm
    obtain ⟨hw, hlt, hrest⟩ := hm
    rcases lt_trichotomy a k with hak | hak | hak
    · by_cases hv : v = Memory.unlisted
      · simpa [Memory.write, hak, hv] using hm'
      · have hall : ((k, w) :: rest).all (fun c => decide (a < c.1)) = true := by
          simp only [List.all_cons, Bool.and_eq_true, decide_eq_true_eq]
          exact ⟨hak, Memory.all_lt_trans hak hlt⟩
        have : Memory.write ((k, w) :: rest) a v = (a, v) :: (k, w) :: rest := by simp [Memory.write, hak, hv]
        rw [this, Memory.wf_cons]
        exact ⟨hv, hall, hm'⟩
    · subst hak
      by_cases hv : v = Memory.unlisted
      · simpa [Memory.write, hv] using hrest
      · have : Memory.write ((a, w) :: rest) a v = (a, v) :: rest := by simp [Memory.write, hv]
        rw [this, Memory.wf_cons]
        exact ⟨hv, hlt, hrest⟩
    · have h1 : ¬ a < k := by omega
      have h2 : ¬ a = k := by omega
      have : Memory.write ((k, w) :: rest) a v = (k, w) :: Memory.write rest a v := by simp [Memory.write, h1, h2]
      rw [this, Memory.wf_cons]
      exact ⟨hw, Memory.all_write (p := fun x => decide (k < x)) hlt (by simpa using hak), ih hrest⟩

/-- A write inside `MEM` keeps every listed byte inside `MEM`. -/
theorem Memory.within_write {m : Memory} {size a : Nat} {v : Byte} (hm : m.within size = true) (ha : a < size) :
    (m.write a v).within size = true :=
  Memory.all_write (p := fun x => decide (x < size)) hm (by simpa using ha)

/-- The byte sequence of a buffer one byte longer (R50). -/
theorem Memory.bytes_succ (m : Memory) (addr n : Nat) :
    m.bytes addr (n + 1) = m.bytes addr n ++ [m.read (addr + n)] := by
  simp [Memory.bytes, List.range_succ]

/-- The byte sequence of a buffer, its first byte split off (R50). -/
theorem Memory.bytes_succ' (m : Memory) (addr n : Nat) :
    m.bytes addr (n + 1) = m.read addr :: m.bytes (addr + 1) n := by
  simp only [Memory.bytes, List.range_succ_eq_map, List.map_cons, List.map_map, Nat.add_zero]
  congr 1
  apply List.map_congr_left
  intro k _
  simp [Nat.add_comm, Nat.add_left_comm]

@[simp] theorem Memory.bytes_zero (m : Memory) (addr : Nat) : m.bytes addr 0 = [] := rfl

@[simp] theorem Memory.bytes_length (m : Memory) (addr n : Nat) : (m.bytes addr n).length = n := by
  simp [Memory.bytes]

end Sys2Proof.Machine
end

