-- ==== Sys2Proof/Laws/Table.lean ====
section
/-! SUPPORT. The laws of table contents: entries of a table given by its entries, of a table with one entry replaced,
equality of tables, and what the comparison of two tables finds. -/

namespace Sys2Proof.Machine

@[simp] theorem allBytes_length : allBytes.length = 256 := by simp [allBytes]

theorem allBytes_getElem (i : Nat) (h : i < allBytes.length) : allBytes[i] = BitVec.ofNat 8 i := by
  simp [allBytes]

theorem mem_allBytes (b : Byte) : b ∈ allBytes := by
  simp only [allBytes, List.mem_map, List.mem_range]
  exact ⟨b.toNat, b.isLt, by simp⟩

@[simp] theorem Table.entry_ofFn (f : Byte → Word) (i : Byte) : (Table.ofFn f).entry i = f i := by
  simp [Table.entry, Table.ofFn, allBytes_getElem]

theorem Table.entry_put (t : Table) (i j : Byte) (v : Word) :
    (t.put i v).entry j = if j = i then v else t.entry j := by
  by_cases h : j = i
  · subst h
    simp [Table.entry, Table.put]
  · have : ¬ i.toNat = j.toNat := fun e => h (BitVec.eq_of_toNat_eq e.symm)
    simp [Table.entry, Table.put, h, this]

@[simp] theorem Table.entry_zero (i : Byte) : Table.zero.entry i = 0 := by simp [Table.zero]

/-- Two tables with the same entries are the same table. -/
theorem Table.ext_entry {x y : Table} (h : ∀ i, x.entry i = y.entry i) : x = y := by
  apply Vector.ext
  intro i hi
  have := h (BitVec.ofNat 8 i)
  have e : (BitVec.ofNat 8 i).toNat = i := by simpa using Nat.mod_eq_of_lt hi
  simpa [Table.entry, e] using this

/-- R140: the comparison finds nothing exactly when all 256 entries agree. -/
theorem firstDifference_eq_none {x y : Table} :
    firstDifference x y = none ↔ ∀ i, x.entry i = y.entry i := by
  simp only [firstDifference, List.find?_eq_none, bne_iff_ne, ne_eq, not_not]
  exact ⟨fun h i => h i (mem_allBytes i), fun h i _ => h i⟩

/-- R140: the comparison finds `i` exactly when the tables differ at `i` and agree at every lower index. -/
theorem firstDifference_eq_some {x y : Table} {i : Byte} :
    firstDifference x y = some i ↔ x.entry i ≠ y.entry i ∧ ∀ j, j < i → x.entry j = y.entry j := by
  have get : ∀ n (h : n < 256), allBytes[n]'(by simpa using h) = BitVec.ofNat 8 n := fun n h =>
    allBytes_getElem n (by simpa using h)
  rw [firstDifference, List.find?_eq_some_iff_getElem]
  simp only [bne_iff_ne, ne_eq, Bool.not_eq_true', bne_eq_false_iff_eq, allBytes_length]
  constructor
  · rintro ⟨hne, n, hn, he, hlow⟩
    refine ⟨hne, fun j hj => ?_⟩
    have hin : i.toNat = n := by
      rw [← he, get n hn]
      simpa using Nat.mod_eq_of_lt hn
    have hjn : j.toNat < n := hin ▸ BitVec.lt_def.mp hj
    have := hlow j.toNat hjn
    rw [get j.toNat j.isLt] at this
    simpa using this
  · rintro ⟨hne, hlow⟩
    refine ⟨hne, i.toNat, i.isLt, by rw [get i.toNat i.isLt]; simp, fun j hj => ?_⟩
    have hj' : j < 256 := lt_trans hj i.isLt
    have hlt : BitVec.ofNat 8 j < i := by
      rw [BitVec.lt_def]
      simpa [Nat.mod_eq_of_lt hj'] using hj
    rw [get j hj']
    exact hlow _ hlt

/-- R102, inner loop: after the row of the power of two `i` over the indices `js`, entry `n` is the sum just written
if `n = i + j` for a `j` of the list, and else what it was; the entries the row reads are not written by it. -/
theorem doublingRow_entry {i : Byte} {js : List Byte} {t : Table} (hi : ∀ j ∈ js, i + j ≠ i)
    (hj : ∀ j ∈ js, ∀ k ∈ js, i + j ≠ k) (n : Byte) :
    (doublingRow i js t).entry n = if n - i ∈ js then t.entry i ^^^ t.entry (n - i) else t.entry n := by
  induction js generalizing t with
  | nil => simp [doublingRow]
  | cons j rest ih =>
    have step : doublingRow i (j :: rest) t = doublingRow i rest (t.put (i + j) (t.entry i ^^^ t.entry j)) := rfl
    rw [step, ih (fun k hk => hi k (List.mem_cons_of_mem _ hk))
      (fun k hk l hl => hj k (List.mem_cons_of_mem _ hk) l (List.mem_cons_of_mem _ hl))]
    have hii : ¬ i = i + j := fun e => hi j List.mem_cons_self e.symm
    have sub : n - i = j ↔ n = i + j := by
      constructor <;> intro h <;> [rw [← h]; rw [h]] <;> simp
    by_cases hmem : n - i ∈ rest
    · have hk : ¬ n - i = i + j := fun e =>
        hj j List.mem_cons_self (n - i) (List.mem_cons_of_mem _ hmem) e.symm
      simp [hmem, Table.entry_put, hii, hk]
    · by_cases hn : n - i = j
      · have hn' := sub.mp hn
        subst hn'
        simp [Table.entry_put, hn]
        intro h
        exact absurd h (hn ▸ hmem)
      · have : ¬ n = i + j := fun e => hn (sub.mpr e)
        simp [hmem, hn, Table.entry_put, this]

/-- R102: the indices `1 .. i - 1` of a row. -/
theorem mem_bytesBelow {i j : Byte} : j ∈ bytesBelow i ↔ 1 ≤ j.toNat ∧ j.toNat < i.toNat := by
  have hi := i.isLt
  simp only [bytesBelow, List.mem_map, List.mem_range]
  constructor
  · rintro ⟨k, hk, rfl⟩
    have : (BitVec.ofNat 8 (k + 1)).toNat = k + 1 := by
      simp only [BitVec.toNat_ofNat]
      omega
    omega
  · rintro ⟨h1, h2⟩
    refine ⟨j.toNat - 1, by omega, ?_⟩
    apply BitVec.eq_of_toNat_eq
    simp only [BitVec.toNat_ofNat]
    omega

/-- R102: the row of `i` writes exactly the entries strictly between `i` and `2 * i`, each from two entries it does
not write. -/
theorem doublingRow_bytesBelow {i : Byte} (hi : i.toNat ≤ 128) (t : Table) (n : Byte) :
    (doublingRow i (bytesBelow i) t).entry n =
      if i.toNat < n.toNat ∧ n.toNat < 2 * i.toNat then t.entry i ^^^ t.entry (n - i) else t.entry n := by
  have sum : ∀ j ∈ bytesBelow i, (i + j).toNat = i.toNat + j.toNat := by
    intro j hj
    have := mem_bytesBelow.mp hj
    rw [BitVec.toNat_add]
    omega
  rw [doublingRow_entry]
  · have hn := n.isLt
    have : n - i ∈ bytesBelow i ↔ i.toNat < n.toNat ∧ n.toNat < 2 * i.toNat := by
      rw [mem_bytesBelow, BitVec.toNat_sub]
      omega
    simp only [this]
  · intro j hj e
    have h1 := sum j hj
    have h2 := mem_bytesBelow.mp hj
    rw [e] at h1
    omega
  · intro j hj k hk e
    have h1 := sum j hj
    have h2 := mem_bytesBelow.mp hj
    have h3 := mem_bytesBelow.mp hk
    rw [e] at h1
    omega

end Sys2Proof.Machine
end

