-- ==== Sys2Proof/Laws/Crc.lean ====
section
/-! SUPPORT. The unfolding laws of the data path: one law per function and shape of its argument, which later proofs
cite instead of unfolding a loop. -/

namespace Sys2Proof.Machine

@[simp] theorem bitRounds_zero (poly r : Word) : bitRounds poly 0 r = r := rfl

theorem bitRounds_succ (poly : Word) (n : Nat) (r : Word) :
    bitRounds poly (n + 1) r = bitRounds poly n (bitRound poly r) := rfl

/-- The last bit-round split off instead of the first. -/
theorem bitRounds_succ' (poly : Word) (n : Nat) (r : Word) :
    bitRounds poly (n + 1) r = bitRound poly (bitRounds poly n r) := by
  induction n generalizing r with
  | zero => rfl
  | succ n ih => rw [bitRounds_succ, ih, bitRounds_succ]

theorem bitRounds_add (poly : Word) (m n : Nat) (r : Word) :
    bitRounds poly (m + n) r = bitRounds poly m (bitRounds poly n r) := by
  induction n generalizing r with
  | zero => rfl
  | succ n ih => rw [← Nat.add_assoc, bitRounds_succ, ih, bitRounds_succ]

@[simp] theorem zeroUpdates_zero (x : Table) (s : Word) : zeroUpdates x 0 s = s := rfl

theorem zeroUpdates_succ (x : Table) (n : Nat) (s : Word) :
    zeroUpdates x (n + 1) s = zeroUpdates x n (update x s 0) := rfl

/-- The last zero update split off instead of the first. -/
theorem zeroUpdates_succ' (x : Table) (n : Nat) (s : Word) :
    zeroUpdates x (n + 1) s = update x (zeroUpdates x n s) 0 := by
  induction n generalizing s with
  | zero => rfl
  | succ n ih => rw [zeroUpdates_succ, ih, zeroUpdates_succ]

@[simp] theorem fold_zero (c : Cfg) (x : Table) (m : Memory) (addr : Nat) : fold c x m addr 0 = c.init := rfl

/-- R112: one byte more is one update more. -/
theorem fold_succ (c : Cfg) (x : Table) (m : Memory) (addr n : Nat) :
    fold c x m addr (n + 1) = update x (fold c x m addr n) (m.read (addr + n)) := by
  simp [fold, Memory.bytes_succ]

@[simp] theorem referenceTable_entry (poly : Word) (i : Byte) :
    (referenceTable poly).entry i = bitRounds poly 8 i.zext := by
  simp [referenceTable]

@[simp] theorem rollingTable_entry (c : Cfg) (x : Table) (b : Byte) :
    (rollingTable c x).entry b = zeroUpdates x c.w (update x c.init b) ^^^ zeroUpdates x c.w c.init := by
  simp [rollingTable]

/-- One window position answers both values, equal, or ROLL_MISMATCH with the position and both values. -/
theorem compareWindow_cases (c : Cfg) (base : Table) (m : Memory) (addr k : Nat) (s : Word) :
    (checksum c base m (addr + k) c.w = finish c s ∧
        compareWindow c base m addr k s = .ok (checksum c base m (addr + k) c.w, finish c s)) ∨
      (checksum c base m (addr + k) c.w ≠ finish c s ∧
        compareWindow c base m addr k s =
          .error ⟨.rollMismatch, BitVec.ofNat 32 k, checksum c base m (addr + k) c.w, finish c s⟩) := by
  by_cases h : checksum c base m (addr + k) c.w = finish c s
  · exact .inl ⟨h, by simp [compareWindow, h]⟩
  · exact .inr ⟨h, by simp [compareWindow, h]⟩

/-- The only fault of the verifier's loop is ROLL_MISMATCH (R131). -/
theorem verifyWindows_error {c : Cfg} {base rolling : Table} {m : Memory} {addr : Nat} {f : FaultReport} :
    ∀ {left k : Nat} {s : Word}, verifyWindows c base rolling m addr left k s = .error f → f.cause = .rollMismatch := by
  intro left
  induction left with
  | zero =>
    intro k s h
    rcases compareWindow_cases c base m addr k s with ⟨-, e⟩ | ⟨-, e⟩ <;> rw [verifyWindows, e] at h <;> cases h
    rfl
  | succ n ih =>
    intro k s h
    rcases compareWindow_cases c base m addr k s with ⟨-, e⟩ | ⟨-, e⟩ <;> rw [verifyWindows, e] at h
    · exact ih h
    · cases h; rfl

end Sys2Proof.Machine
end

