-- ==== Sys2Proof/Laws/Decode.lean ====
section
/-! SUPPORT. The bit laws of the packet layout (R71): each field of a laid out command word is what was laid there, and
a word with its `zero` field clear is the layout of its fields. -/

namespace Sys2Proof

theorem layoutWord0_bit (op : Opcode) (t2 t1 : Slot) (b2 b1 : Byte) (i : Nat) :
    (layoutWord0 op t2 t1 b2 b1).getLsbD i =
      if i < 8 then b1.getLsbD i
      else if i - 8 < 8 then b2.getLsbD (i - 8)
      else if i - 8 - 8 < 2 then (BitVec.ofFin (w := 2) t1).getLsbD (i - 8 - 8)
      else if i - 8 - 8 - 2 < 2 then (BitVec.ofFin (w := 2) t2).getLsbD (i - 8 - 8 - 2)
      else if i - 8 - 8 - 2 - 2 < 4 then false
      else op.code.getLsbD (i - 8 - 8 - 2 - 2 - 4) := by
  unfold layoutWord0
  simp only [BitVec.getLsbD_append]
  split_ifs <;> simp

theorem fieldOpcode_layout (op : Opcode) (t2 t1 : Slot) (b2 b1 : Byte) :
    fieldOpcode (layoutWord0 op t2 t1 b2 b1) = op.code := by
  apply BitVec.eq_of_getLsbD_eq
  intro i hi
  rw [fieldOpcode, BitVec.getLsbD_extractLsb', layoutWord0_bit]
  have h1 : ¬ 24 + i < 8 := by omega
  have h2 : ¬ 24 + i - 8 < 8 := by omega
  have h3 : ¬ 24 + i - 8 - 8 < 2 := by omega
  have h4 : ¬ 24 + i - 8 - 8 - 2 < 2 := by omega
  have h5 : ¬ 24 + i - 8 - 8 - 2 - 2 < 4 := by omega
  have h6 : 24 + i - 8 - 8 - 2 - 2 - 4 = i := by omega
  rw [if_neg h1, if_neg h2, if_neg h3, if_neg h4, if_neg h5, h6]
  simp [hi]

theorem fieldZero_layout (op : Opcode) (t2 t1 : Slot) (b2 b1 : Byte) :
    fieldZero (layoutWord0 op t2 t1 b2 b1) = 0 := by
  apply BitVec.eq_of_getLsbD_eq
  intro i hi
  rw [fieldZero, BitVec.getLsbD_extractLsb', layoutWord0_bit]
  have h1 : ¬ 20 + i < 8 := by omega
  have h2 : ¬ 20 + i - 8 < 8 := by omega
  have h3 : ¬ 20 + i - 8 - 8 < 2 := by omega
  have h4 : ¬ 20 + i - 8 - 8 - 2 < 2 := by omega
  have h5 : 20 + i - 8 - 8 - 2 - 2 < 4 := by omega
  rw [if_neg h1, if_neg h2, if_neg h3, if_neg h4, if_pos h5]
  simp

theorem fieldT2_layout (op : Opcode) (t2 t1 : Slot) (b2 b1 : Byte) :
    fieldT2 (layoutWord0 op t2 t1 b2 b1) = t2 := by
  have : (layoutWord0 op t2 t1 b2 b1).extractLsb' 18 2 = BitVec.ofFin (w := 2) t2 := by
    apply BitVec.eq_of_getLsbD_eq
    intro i hi
    rw [BitVec.getLsbD_extractLsb', layoutWord0_bit]
    have h1 : ¬ 18 + i < 8 := by omega
    have h2 : ¬ 18 + i - 8 < 8 := by omega
    have h3 : ¬ 18 + i - 8 - 8 < 2 := by omega
    have h4 : 18 + i - 8 - 8 - 2 < 2 := by omega
    have h5 : 18 + i - 8 - 8 - 2 = i := by omega
    rw [if_neg h1, if_neg h2, if_neg h3, if_pos h4, h5]
    simp [hi]
  rw [fieldT2, this]

theorem fieldT1_layout (op : Opcode) (t2 t1 : Slot) (b2 b1 : Byte) :
    fieldT1 (layoutWord0 op t2 t1 b2 b1) = t1 := by
  have : (layoutWord0 op t2 t1 b2 b1).extractLsb' 16 2 = BitVec.ofFin (w := 2) t1 := by
    apply BitVec.eq_of_getLsbD_eq
    intro i hi
    rw [BitVec.getLsbD_extractLsb', layoutWord0_bit]
    have h1 : ¬ 16 + i < 8 := by omega
    have h2 : ¬ 16 + i - 8 < 8 := by omega
    have h3 : 16 + i - 8 - 8 < 2 := by omega
    have h4 : 16 + i - 8 - 8 = i := by omega
    rw [if_neg h1, if_neg h2, if_pos h3, h4]
    simp [hi]
  rw [fieldT1, this]

theorem fieldB2_layout (op : Opcode) (t2 t1 : Slot) (b2 b1 : Byte) :
    fieldB2 (layoutWord0 op t2 t1 b2 b1) = b2 := by
  apply BitVec.eq_of_getLsbD_eq
  intro i hi
  rw [fieldB2, BitVec.getLsbD_extractLsb', layoutWord0_bit]
  have h1 : ¬ 8 + i < 8 := by omega
  have h2 : 8 + i - 8 < 8 := by omega
  have h3 : 8 + i - 8 = i := by omega
  rw [if_neg h1, if_pos h2, h3]
  simp [hi]

theorem fieldB1_layout (op : Opcode) (t2 t1 : Slot) (b2 b1 : Byte) :
    fieldB1 (layoutWord0 op t2 t1 b2 b1) = b1 := by
  apply BitVec.eq_of_getLsbD_eq
  intro i hi
  rw [fieldB1, BitVec.getLsbD_extractLsb', layoutWord0_bit]
  have h1 : 0 + i < 8 := by omega
  rw [if_pos h1, Nat.zero_add]
  simp [hi]

/-- A command word with its `zero` field clear and the opcode `op` is the layout of its own fields. -/
theorem layout_of_fields (op : Opcode) (w : Word) (hop : fieldOpcode w = op.code) (hz : fieldZero w = 0) :
    layoutWord0 op (fieldT2 w) (fieldT1 w) (fieldB2 w) (fieldB1 w) = w := by
  have ofFin (v : BitVec 2) : BitVec.ofFin (w := 2) v.toFin = v := rfl
  apply BitVec.eq_of_getLsbD_eq
  intro i hi
  have hz' : ∀ j, j < 4 → w.getLsbD (20 + j) = false := by
    intro j hj
    have := congrArg (fun v : BitVec 4 => v.getLsbD j) hz
    simpa [fieldZero, BitVec.getLsbD_extractLsb', hj] using this
  rw [layoutWord0_bit, ← hop]
  simp only [fieldT2, fieldT1, fieldB2, fieldB1, fieldOpcode, ofFin, BitVec.getLsbD_extractLsb']
  split_ifs with h1 h2 h3 h4 h5
  · simp [h1]
  · have e : 8 + (i - 8) = i := by omega
    simp [h2, e]
  · have e : 16 + (i - 8 - 8) = i := by omega
    simp [h3, e]
  · have e : 18 + (i - 8 - 8 - 2) = i := by omega
    simp [h4, e]
  · have := hz' (i - 8 - 8 - 2 - 2) h5
    have e : 20 + (i - 8 - 8 - 2 - 2) = i := by omega
    rw [e] at this
    exact this.symm
  · have e : 24 + (i - 8 - 8 - 2 - 2 - 4) = i := by omega
    have l : i - 8 - 8 - 2 - 2 - 4 < 8 := by omega
    simp [l, e]

theorem Opcode.ofCode_code (op : Opcode) : Opcode.ofCode op.code = some op := by
  cases op <;> decide

theorem Opcode.code_of_ofCode {b : Byte} {op : Opcode} (h : Opcode.ofCode b = some op) : op.code = b := by
  have := List.find?_some h
  simpa using this

/-- Everything decoding can answer with a command: the opcode is assigned and every check of R77 passed. -/
theorem decode_ok {p : Packet} {i : Instr} (h : decode p = .ok i) :
    ∃ op, Opcode.ofCode (fieldOpcode p.word0) = some op ∧ fieldZero p.word0 = 0 ∧
      op.format.fieldsClear p.word0 = true ∧ op.format.argsClear p = true ∧ i = assemble op p := by
  unfold decode at h
  cases ho : Opcode.ofCode (fieldOpcode p.word0) with
  | none => simp only [ho] at h; cases h
  | some op =>
    simp only [ho] at h
    split_ifs at h with h1 h2 h3
    cases h
    refine ⟨op, rfl, ?_, ?_, ?_, rfl⟩
    · simpa using h1
    · simpa using h2
    · simpa using h3

end Sys2Proof
end

