-- ==== Sys2Proof/Laws/Exec.lean ====
section
/-! SUPPORT. Everything a command and a step can do, said once: the outcomes of `exec` and of `step` with the updates
they make. The invariant and frame proofs are case analyses over these. -/

namespace Sys2Proof.Machine

/-- The update a command makes when it completes without a fault, and what its checks found; the values written are
left to the result statements. -/
def Completed : Instr → State → State → Prop
  | .nop, s, t => t = s
  | .bldref td, s, t => s.slot td = none ∧ ∃ x, t = s.installTable td x
  | .blddbl td _, s, t => s.slot td = none ∧ ∃ x, t = s.installTable td x
  | .bldrslow td ts, s, t => (∃ y, s.slot ts = some y) ∧ s.slot td = none ∧ ∃ x, t = s.installTable td x
  | .bldrfast td ts, s, t => (∃ y, s.slot ts = some y) ∧ s.slot td = none ∧ ∃ x, t = s.installTable td x
  | .cinit, s, t => t = s.startAcc s.cfg.init
  | .cupd ts _, s, t => (∃ y, s.slot ts = some y) ∧ s.av = true ∧ ∃ v, t = s.setAcc v
  | .cfin, s, t => s.av = true ∧ t = s.setRes0 (finish s.cfg s.acc)
  | .csum ts addr len, s, t =>
    (∃ y, s.slot ts = some y) ∧ addr.toNat + len.toNat ≤ s.cfg.memSize ∧ ∃ v w, t = (s.startAcc v).setRes0 w
  | .croll tb tr _ _, s, t =>
    (∃ y, s.slot tb = some y) ∧ (∃ y, s.slot tr = some y) ∧ s.av = true ∧ ∃ v, t = s.setAcc v
  | .cmptbl ta tb, s, t => (∃ y, s.slot ta = some y) ∧ (∃ y, s.slot tb = some y) ∧ t = s
  | .rollvfy tb tr addr n, s, t =>
    (∃ y, s.slot tb = some y) ∧ (∃ y, s.slot tr = some y) ∧ addr.toNat + (s.cfg.w + n.toNat) ≤ s.cfg.memSize ∧
      ∃ v w, t = (s.setRes0 v).setRes1 w
  | .rdtbl ts _, s, t => (∃ y, s.slot ts = some y) ∧ ∃ v, t = s.setRes0 v

/-- A check that answers an error ends the command with it. -/
theorem bind_error {α β : Type} (f : FaultReport) (k : α → Except FaultReport β) :
    ((Except.error f : Except FaultReport α) >>= k) = .error f := rfl

/-- A check that passes hands its value on. -/
theorem bind_ok {α β : Type} (a : α) (k : α → Except FaultReport β) :
    ((Except.ok a : Except FaultReport α) >>= k) = k a := rfl

/-- Everything a command can do: it is discarded with `FAULT = 1`; else it enters a fault with a cause of its own and
no other write, or it completes. -/
theorem exec_cases {i : Instr} {s t : State} (h : exec i s = .next t) :
    (s.fault = true ∧ t = s) ∨
      (s.fault = false ∧ ((∃ f : FaultReport, f.cause ≠ .none ∧ t = s.enterFault f) ∨ Completed i s t)) := by
  cases i with
  | nop =>
    change command s (.ok s) = .next t at h
    rcases command_cases h with ⟨hf, e⟩ | ⟨hf, e⟩ | ⟨hf, f, e, rfl⟩
    · exact .inl ⟨hf, e⟩
    · cases e; exact .inr ⟨hf, .inr rfl⟩
    · cases e
  | bldref td =>
    rcases command_cases h with ⟨hf, e⟩ | ⟨hf, e⟩ | ⟨hf, f, e, rfl⟩
    · exact .inl ⟨hf, e⟩
    all_goals rcases destinationFree_cases s td with ⟨hd, ed⟩ | ⟨y, hd, ed⟩ <;> rw [ed] at e <;> cases e
    · exact .inr ⟨hf, .inr ⟨hd, _, rfl⟩⟩
    · exact .inr ⟨hf, .inl ⟨_, by simp, rfl⟩⟩
  | blddbl td seed =>
    rcases command_cases h with ⟨hf, e⟩ | ⟨hf, e⟩ | ⟨hf, f, e, rfl⟩
    · exact .inl ⟨hf, e⟩
    all_goals rcases destinationFree_cases s td with ⟨hd, ed⟩ | ⟨y, hd, ed⟩ <;> rw [ed] at e <;> cases e
    · exact .inr ⟨hf, .inr ⟨hd, _, rfl⟩⟩
    · exact .inr ⟨hf, .inl ⟨_, by simp, rfl⟩⟩
  | bldrslow td ts =>
    rcases command_cases h with ⟨hf, e⟩ | ⟨hf, e⟩ | ⟨hf, f, e, rfl⟩
    · exact .inl ⟨hf, e⟩
    all_goals
      rcases sourceTable_cases s ts with ⟨x, hs, es⟩ | ⟨hs, es⟩ <;> rw [es] at e <;>
      rcases destinationFree_cases s td with ⟨hd, ed⟩ | ⟨y, hd, ed⟩ <;> simp only [bind_ok, bind_error, ed] at e <;>
      cases e
    · exact .inr ⟨hf, .inr ⟨⟨x, hs⟩, hd, _, rfl⟩⟩
    all_goals exact .inr ⟨hf, .inl ⟨_, by simp, rfl⟩⟩
  | bldrfast td ts =>
    rcases command_cases h with ⟨hf, e⟩ | ⟨hf, e⟩ | ⟨hf, f, e, rfl⟩
    · exact .inl ⟨hf, e⟩
    all_goals
      rcases sourceTable_cases s ts with ⟨x, hs, es⟩ | ⟨hs, es⟩ <;> rw [es] at e <;>
      rcases destinationFree_cases s td with ⟨hd, ed⟩ | ⟨y, hd, ed⟩ <;> simp only [bind_ok, bind_error, ed] at e <;>
      cases e
    · exact .inr ⟨hf, .inr ⟨⟨x, hs⟩, hd, _, rfl⟩⟩
    all_goals exact .inr ⟨hf, .inl ⟨_, by simp, rfl⟩⟩
  | cinit =>
    change command s (.ok (s.startAcc s.cfg.init)) = .next t at h
    rcases command_cases h with ⟨hf, e⟩ | ⟨hf, e⟩ | ⟨hf, f, e, rfl⟩
    · exact .inl ⟨hf, e⟩
    · cases e; exact .inr ⟨hf, .inr rfl⟩
    · cases e
  | cupd ts b =>
    rcases command_cases h with ⟨hf, e⟩ | ⟨hf, e⟩ | ⟨hf, f, e, rfl⟩
    · exact .inl ⟨hf, e⟩
    all_goals
      rcases sourceTable_cases s ts with ⟨x, hs, es⟩ | ⟨hs, es⟩ <;> rw [es] at e <;>
      rcases accumulator_cases s with ⟨ha, ea⟩ | ⟨ha, ea⟩ <;> simp only [bind_ok, bind_error, ea] at e <;> cases e
    · exact .inr ⟨hf, .inr ⟨⟨x, hs⟩, ha, _, rfl⟩⟩
    all_goals exact .inr ⟨hf, .inl ⟨_, by simp, rfl⟩⟩
  | cfin =>
    rcases command_cases h with ⟨hf, e⟩ | ⟨hf, e⟩ | ⟨hf, f, e, rfl⟩
    · exact .inl ⟨hf, e⟩
    all_goals rcases accumulator_cases s with ⟨ha, ea⟩ | ⟨ha, ea⟩ <;> rw [ea] at e <;> cases e
    · exact .inr ⟨hf, .inr ⟨ha, rfl⟩⟩
    · exact .inr ⟨hf, .inl ⟨_, by simp, rfl⟩⟩
  | csum ts addr len =>
    rcases command_cases h with ⟨hf, e⟩ | ⟨hf, e⟩ | ⟨hf, f, e, rfl⟩
    · exact .inl ⟨hf, e⟩
    all_goals
      rcases sourceTable_cases s ts with ⟨x, hs, es⟩ | ⟨hs, es⟩ <;> rw [es] at e <;>
      rcases bufferInside_cases s addr len len.toNat with ⟨hb, eb⟩ | ⟨hb, eb⟩ <;>
      simp only [bind_ok, bind_error, eb] at e <;> cases e
    · exact .inr ⟨hf, .inr ⟨⟨x, hs⟩, hb, _, _, rfl⟩⟩
    all_goals exact .inr ⟨hf, .inl ⟨_, by simp, rfl⟩⟩
  | croll tb tr bin bout =>
    rcases command_cases h with ⟨hf, e⟩ | ⟨hf, e⟩ | ⟨hf, f, e, rfl⟩
    · exact .inl ⟨hf, e⟩
    all_goals
      rcases sourceTable_cases s tb with ⟨x, hs, es⟩ | ⟨hs, es⟩ <;> rw [es] at e <;>
      rcases sourceTable_cases s tr with ⟨y, hr, er⟩ | ⟨hr, er⟩ <;>
      rcases accumulator_cases s with ⟨ha, ea⟩ | ⟨ha, ea⟩ <;> simp only [bind_ok, bind_error, er, ea] at e <;> cases e
    · exact .inr ⟨hf, .inr ⟨⟨x, hs⟩, ⟨y, hr⟩, ha, _, rfl⟩⟩
    all_goals exact .inr ⟨hf, .inl ⟨_, by simp, rfl⟩⟩
  | cmptbl ta tb =>
    rcases command_cases h with ⟨hf, e⟩ | ⟨hf, e⟩ | ⟨hf, f, e, rfl⟩
    · exact .inl ⟨hf, e⟩
    all_goals
      rcases sourceTable_cases s ta with ⟨x, hs, es⟩ | ⟨hs, es⟩ <;> rw [es] at e <;>
      rcases sourceTable_cases s tb with ⟨y, hr, er⟩ | ⟨hr, er⟩ <;> simp only [bind_ok, bind_error, er] at e <;>
      try cases e
    · cases hd : firstDifference x y <;> simp only [hd] at e <;> cases e
      exact .inr ⟨hf, .inr ⟨⟨x, hs⟩, ⟨y, hr⟩, rfl⟩⟩
    · cases hd : firstDifference x y <;> simp only [hd] at e <;> cases e
      exact .inr ⟨hf, .inl ⟨_, by simp, rfl⟩⟩
    all_goals exact .inr ⟨hf, .inl ⟨_, by simp, rfl⟩⟩
  | rollvfy tb tr addr n =>
    rcases command_cases h with ⟨hf, e⟩ | ⟨hf, e⟩ | ⟨hf, f, e, rfl⟩
    · exact .inl ⟨hf, e⟩
    all_goals
      rcases sourceTable_cases s tb with ⟨x, hs, es⟩ | ⟨hs, es⟩ <;> rw [es] at e <;>
      rcases sourceTable_cases s tr with ⟨y, hr, er⟩ | ⟨hr, er⟩ <;>
      rcases bufferInside_cases s addr n (s.cfg.w + n.toNat) with ⟨hb, eb⟩ | ⟨hb, eb⟩ <;>
      simp only [bind_ok, bind_error, er, eb] at e <;> try cases e
    · cases hv : verifyWindows s.cfg x y s.mem addr.toNat n.toNat 0 (fold s.cfg x s.mem addr.toNat s.cfg.w) with
      | ok p => rw [hv] at e; cases e; exact .inr ⟨hf, .inr ⟨⟨x, hs⟩, ⟨y, hr⟩, hb, _, _, rfl⟩⟩
      | error g => rw [hv] at e; cases e
    · cases hv : verifyWindows s.cfg x y s.mem addr.toNat n.toNat 0 (fold s.cfg x s.mem addr.toNat s.cfg.w) with
      | ok p => rw [hv] at e; cases e
      | error g =>
        rw [hv] at e
        cases e
        exact .inr ⟨hf, .inl ⟨_, by rw [verifyWindows_error hv]; simp, rfl⟩⟩
    all_goals exact .inr ⟨hf, .inl ⟨_, by simp, rfl⟩⟩
  | rdtbl ts idx =>
    rcases command_cases h with ⟨hf, e⟩ | ⟨hf, e⟩ | ⟨hf, f, e, rfl⟩
    · exact .inl ⟨hf, e⟩
    all_goals rcases sourceTable_cases s ts with ⟨x, hs, es⟩ | ⟨hs, es⟩ <;> rw [es] at e <;> cases e
    · exact .inr ⟨hf, .inr ⟨⟨x, hs⟩, _, rfl⟩⟩
    · exact .inr ⟨hf, .inl ⟨_, by simp, rfl⟩⟩

/-- Everything the issue of a packet can do. -/
theorem issue_cases {p : Packet} {s t : State} (h : issue p s = .next t) :
    (s.fault = true ∧ t = s) ∨
      (s.fault = false ∧ ((∃ e, decode p = .error e ∧ t = s.enterFault ⟨.illegalCommand, p.word0, p.arg0, p.arg1⟩) ∨
        ∃ i, decode p = .ok i ∧ exec i s = .next t)) := by
  unfold issue at h
  cases hf : s.fault with
  | true => simp only [hf, if_true] at h; cases h; exact .inl ⟨rfl, rfl⟩
  | false =>
    cases hd : decode p with
    | ok i => simp only [hf, hd] at h; exact .inr ⟨rfl, .inr ⟨i, rfl, h⟩⟩
    | error e => simp only [hf, hd] at h; cases h; exact .inr ⟨rfl, .inl ⟨e, rfl, rfl⟩⟩

/-- Everything a host action can do when it answers a next state. -/
theorem hostAct_cases {a : HostAction} {s t : State} (h : hostAct a s = .next t) :
    (a = .reset ∧ t = s.resetBlock) ∨
      (∃ b v, a = .writeMem b v ∧ b < s.cfg.memSize ∧ t = s.writeMem b v) ∨
      (∃ r, (∀ p, a ≠ .issue p) ∧ a ≠ .reset ∧ t = s.reply r) ∨ (∃ p, a = .issue p ∧ issue p s = .next t) := by
  cases a with
  | reset => cases h; exact .inl ⟨rfl, rfl⟩
  | writeMem b v =>
    simp only [hostAct] at h
    split at h
    · cases h; exact .inr (.inl ⟨b, v, rfl, by assumption, rfl⟩)
    · cases h
  | readMem b =>
    simp only [hostAct] at h
    split at h
    · cases h; exact .inr (.inr (.inl ⟨_, by simp, by simp, rfl⟩))
    · cases h
  | issue p => exact .inr (.inr (.inr ⟨p, rfl, h⟩))
  | readReg n => cases h; exact .inr (.inr (.inl ⟨_, by simp, by simp, rfl⟩))
  | observeFault => cases h; exact .inr (.inr (.inl ⟨_, by simp, by simp, rfl⟩))

/-- Everything a step can do when it answers a next state: it waits, or it takes the host's next action. -/
theorem step_cases {s t : State} (h : step s = .next t) :
    s.cfg.legal = true ∧
      ((s.pending = [] ∧ t = s) ∨ ∃ a rest, s.pending = a :: rest ∧ hostAct a (s.setPending rest) = .next t) := by
  unfold step hostStep at h
  cases hc : s.cfg.legal with
  | false => simp [hc] at h
  | true =>
    cases hp : s.pending with
    | nil => simp only [hc, hp, if_true] at h; cases h; exact ⟨rfl, .inl ⟨rfl, rfl⟩⟩
    | cons a rest => simp only [hc, hp, if_true] at h; exact ⟨rfl, .inr ⟨a, rest, rfl, h⟩⟩

end Sys2Proof.Machine
end

