-- ==== Sys2Proof/Laws/PerInstr.lean ====
section
/-! SUPPORT. The per-instruction family MatchesRow: the packet of a command lies in the command's own row of R75, that
is, `(word0 & mask) = match` and every argument word its format does not use is zero. -/

namespace Sys2Proof.Laws.MatchesRow

open Sys2Proof

/-- R75: a packet selects the command when `(word0 & mask) = match` and the unused `arg` words are zero. -/
def Statement (i : Instr) : Prop :=
  (encode i).word0 &&& i.opcode.maskWord = i.opcode.matchWord ∧ i.opcode.format.argsClear (encode i) = true

/-- The bits of a laid out word under a mask, for the lemmas below. -/
theorem masked_layout {op : Opcode} {t2 t1 : Slot} {b2 b1 : Byte}
    (h : ∀ i : Fin 32, ((layoutWord0 op t2 t1 b2 b1).getLsbD i && op.maskWord.getLsbD i) = op.matchWord.getLsbD i) :
    layoutWord0 op t2 t1 b2 b1 &&& op.maskWord = op.matchWord := by
  apply BitVec.eq_of_getLsbD_eq
  intro i hi
  rw [BitVec.getLsbD_and]
  exact h ⟨i, hi⟩

theorem nop : Statement .nop := by
  unfold Statement
  decide

theorem bldref (td : Slot) : Statement (.bldref td) := by
  revert td
  unfold Statement
  decide

theorem blddbl (td : Slot) (seed : Word) : Statement (.blddbl td seed) := by
  have h : ∀ td : Slot, layoutWord0 .blddbl 0 td 0 0 &&& Opcode.maskWord .blddbl = Opcode.matchWord .blddbl := by decide
  exact ⟨h td, rfl⟩

theorem bldrslow (td ts : Slot) : Statement (.bldrslow td ts) := by
  have h : ∀ ts td : Slot, layoutWord0 .bldrslow ts td 0 0 &&& Opcode.maskWord .bldrslow = Opcode.matchWord .bldrslow := by
    decide
  exact ⟨h ts td, rfl⟩

theorem bldrfast (td ts : Slot) : Statement (.bldrfast td ts) := by
  have h : ∀ ts td : Slot, layoutWord0 .bldrfast ts td 0 0 &&& Opcode.maskWord .bldrfast = Opcode.matchWord .bldrfast := by
    decide
  exact ⟨h ts td, rfl⟩

theorem cinit : Statement .cinit := by
  unfold Statement
  decide

theorem cupd (ts : Slot) (b : Byte) : Statement (.cupd ts b) := by
  refine ⟨masked_layout fun i => ?_, rfl⟩
  rw [layoutWord0_bit]
  fin_cases ts <;> fin_cases i <;> first | rfl | simp [Opcode.maskWord, Opcode.matchWord]

theorem cfin : Statement .cfin := by
  unfold Statement
  decide

theorem csum (ts : Slot) (addr len : Word) : Statement (.csum ts addr len) := by
  have h : ∀ ts : Slot, layoutWord0 .csum 0 ts 0 0 &&& Opcode.maskWord .csum = Opcode.matchWord .csum := by decide
  exact ⟨h ts, rfl⟩

theorem croll (tb tr : Slot) (bin bout : Byte) : Statement (.croll tb tr bin bout) := by
  refine ⟨masked_layout fun i => ?_, rfl⟩
  rw [layoutWord0_bit]
  fin_cases i <;> first | rfl | simp [Opcode.maskWord, Opcode.matchWord]

theorem cmptbl (ta tb : Slot) : Statement (.cmptbl ta tb) := by
  have h : ∀ tb ta : Slot, layoutWord0 .cmptbl tb ta 0 0 &&& Opcode.maskWord .cmptbl = Opcode.matchWord .cmptbl := by
    decide
  exact ⟨h tb ta, rfl⟩

theorem rollvfy (tb tr : Slot) (addr n : Word) : Statement (.rollvfy tb tr addr n) := by
  have h : ∀ tr tb : Slot, layoutWord0 .rollvfy tr tb 0 0 &&& Opcode.maskWord .rollvfy = Opcode.matchWord .rollvfy := by
    decide
  exact ⟨h tr tb, rfl⟩

theorem rdtbl (ts : Slot) (idx : Byte) : Statement (.rdtbl ts idx) := by
  refine ⟨masked_layout fun i => ?_, rfl⟩
  rw [layoutWord0_bit]
  fin_cases ts <;> fin_cases i <;> first | rfl | simp [Opcode.maskWord, Opcode.matchWord]

end Sys2Proof.Laws.MatchesRow
end

