-- ==== Sys2Proof/Tests/Slice0.lean ====
section
/-! SUPPORT. The model's own tests. Expected values are those of spec/95_test_vectors.md (V and S numbers) and of the
examples in the rules; then one witness per statement with hypotheses, with the boundary values of its clauses. -/

namespace Sys2Proof.Tests

open Sys2Proof.Machine

/-! ## Well-formedness: an ill-formed term for each check -/

theorem test_hw_config_legal : Cfg.hw.legal = true := by decide

/-- R6: `cfg.W = 0` is refused. -/
theorem test_config_w_zero : (Cfg.legal { Cfg.hw with w := 0 }) = false := by decide

/-- R6: `cfg.W` is at most `2^32 - 1`. -/
theorem test_config_w_large : (Cfg.legal { Cfg.hw with w := 4294967296 }) = false ∧
    (Cfg.legal { Cfg.hw with w := 4294967295 }) = true := by decide

/-- R8: `cfg.MEMSIZE` is at least 1. -/
theorem test_config_memsize_zero : (Cfg.legal { Cfg.hw with memSize := 0 }) = false := by decide

/-- R8: `cfg.MEMSIZE` is at most `2^32 - 1`. -/
theorem test_config_memsize_large : (Cfg.legal { Cfg.hw with memSize := 4294967296 }) = false ∧
    (Cfg.legal { Cfg.hw with memSize := 4294967295 }) = true := by decide

/-- R56: the last byte of `MEM` may be written, the next address may not. -/
theorem test_action_write_outside : (HostAction.writeMem 4096 0).wf Cfg.hw = false ∧
    (HostAction.writeMem 4095 0).wf Cfg.hw = true := by decide

/-- R33: the last byte of `MEM` may be read, the next address may not. -/
theorem test_action_read_outside : (HostAction.readMem 4096).wf Cfg.hw = false ∧
    (HostAction.readMem 4095).wf Cfg.hw = true := by decide

/-- A program with one ill-formed action is ill-formed. -/
theorem test_program_ill_formed : programWf Cfg.hw [.reset, .writeMem 5000 1] = false ∧
    programWf Cfg.hw (.reset :: memDirective 4094 [1, 2]) = true := by decide

/-! ## Decoding: words written out bit by bit from R71 and R75 -/

theorem test_decode_nop : decode ⟨0b00000000_0000_00_00_00000000_00000000, 0, 0⟩ = .ok .nop := by decide
theorem test_decode_bldref : decode ⟨0b00000001_0000_00_10_00000000_00000000, 0, 0⟩ = .ok (.bldref 2) := by decide
theorem test_decode_blddbl : decode ⟨0b00000010_0000_00_11_00000000_00000000, 0x12345678, 0⟩ =
    .ok (.blddbl 3 0x12345678) := by decide
theorem test_decode_bldrslow : decode ⟨0b00000011_0000_01_10_00000000_00000000, 0, 0⟩ = .ok (.bldrslow 2 1) := by decide
theorem test_decode_bldrfast : decode ⟨0b00000100_0000_10_11_00000000_00000000, 0, 0⟩ = .ok (.bldrfast 3 2) := by decide
theorem test_decode_cinit : decode ⟨0b00010000_0000_00_00_00000000_00000000, 0, 0⟩ = .ok .cinit := by decide
theorem test_decode_cupd : decode ⟨0b00010001_0000_00_01_00000000_10000001, 0, 0⟩ = .ok (.cupd 1 0x81) := by decide
theorem test_decode_cfin : decode ⟨0b00010010_0000_00_00_00000000_00000000, 0, 0⟩ = .ok .cfin := by decide
theorem test_decode_csum : decode ⟨0b00010011_0000_00_01_00000000_00000000, 0xFFFFFFFF, 0x80000001⟩ =
    .ok (.csum 1 0xFFFFFFFF 0x80000001) := by decide
theorem test_decode_croll : decode ⟨0b00010100_0000_11_01_11110000_00001111, 0, 0⟩ =
    .ok (.croll 1 3 0x0F 0xF0) := by decide
theorem test_decode_cmptbl : decode ⟨0b00100000_0000_11_10_00000000_00000000, 0, 0⟩ = .ok (.cmptbl 2 3) := by decide
theorem test_decode_rollvfy : decode ⟨0b00100001_0000_10_01_00000000_00000000, 7, 9⟩ = .ok (.rollvfy 1 2 7 9) := by decide
theorem test_decode_rdtbl : decode ⟨0b00110000_0000_00_11_00000000_11111111, 0, 0⟩ = .ok (.rdtbl 3 255) := by decide

/-- V84, V94: unassigned opcodes. -/
theorem test_decode_unassigned : decode ⟨0xFF000000, 0, 0⟩ = .error .unassignedOpcode ∧
    decode ⟨0x31000000, 0, 0⟩ = .error .unassignedOpcode := by decide
/-- V85: a bit of the `zero` field. -/
theorem test_decode_zero_field : decode ⟨0x01100000, 0, 0⟩ = .error .zeroFieldSet ∧
    decode ⟨0x14800000, 0, 0⟩ = .error .zeroFieldSet := by decide
/-- V86, V87, V90, V92: a field the format does not use. -/
theorem test_decode_unused_field : decode ⟨0x01000001, 0, 0⟩ = .error .unusedFieldSet ∧
    decode ⟨0x01040000, 0, 0⟩ = .error .unusedFieldSet ∧ decode ⟨0x11000131, 0, 0⟩ = .error .unusedFieldSet ∧
    decode ⟨0x13000100, 0, 0⟩ = .error .unusedFieldSet ∧ decode ⟨0x10010000, 0, 0⟩ = .error .unusedFieldSet := by decide
/-- V88, V89, V91, V93: an argument word the format does not use. -/
theorem test_decode_unused_argument : decode ⟨0x10000000, 1, 0⟩ = .error .unusedArgumentSet ∧
    decode ⟨0x02010000, 0xEDB88320, 1⟩ = .error .unusedArgumentSet ∧
    decode ⟨0x14080B2C, 0, 1⟩ = .error .unusedArgumentSet ∧
    decode ⟨0x00000000, 0, 1⟩ = .error .unusedArgumentSet := by decide
/-- The table's numbering: `word0` is bits 31:0, `arg0` 63:32, `arg1` 95:64. -/
theorem test_decode_table_word : decodeTableWord 32 0x14080B2C = some (.croll 0 2 0x2C 0x0B) ∧
    decodeTableWord 96 0x000000C80000000121080000 = some (.rollvfy 0 2 1 200) ∧
    decodeTableWord 32 0x05000000 = none := by decide
/-- R81: the packet of `BLDFAST T1`. -/
theorem test_encode_bldfast : encode (bldfast Cfg.hw.poly 1) = ⟨0x02010000, 0xEDB88320, 0⟩ := by decide

/-! ## The commands -/

/-- A value of the state a command answers, if it answers a next state. -/
def after {α : Type} (f : State → α) : Host.Outcome State Fault Refusal → Option α
  | .next t => some (f t)
  | .fault _ => none
  | .refused _ => none

/-- The fault registers. -/
def report (s : State) : Bool × Cause × Word × Word × Word := (s.fault, s.cause, s.finfo, s.fval0, s.fval1)

/-- The reference table of this hardware's polynomial. -/
def base : Table := referenceTable 0xEDB88320

/-- The configuration of the vectors with another window size and initial value. -/
def cfgOf (w : Nat) (init : Word) : Cfg := { poly := 0xEDB88320, w := w, init := init, memSize := 4096 }

/-- A state from reset with two slots filled. -/
def withTables (c : Cfg) (t0 t2 : Option Table) : State := { State.reset with cfg := c, tbl := #v[t0, none, t2, none] }

/-- The test buffer `B` of spec/95_test_vectors.md section 0 at address 0, in canonical form. -/
def bufferB : Memory :=
  ((List.range 300).map (fun i => (i, BitVec.ofNat 8 (11 + 31 * i + i / 17)))).filter (fun c => c.2 != 0)

/-- V9, V11. -/
theorem test_bldref : after (fun t => ((t.slot 0).map (fun x => (x.entry 0, x.entry 1, x.entry 85, x.entry 128, x.entry 255)),
      t.status)) (exec (.bldref 0) State.reset) =
    some (some (0x00000000, 0x77073096, 0x1B01A57B, 0xEDB88320, 0x2D02EF8D), 0x00000010) := by decide +kernel
theorem test_bldref_locked : after report (exec (.bldref 0) (withTables Cfg.hw (some Table.zero) none)) =
    some (true, .tableLocked, 0, 0, 0) := by decide +kernel

/-- V13. -/
theorem test_blddbl : after (fun t => (t.slot 1).map (fun x => (x.entry 0, x.entry 1, x.entry 2, x.entry 3, x.entry 64,
      x.entry 128, x.entry 255))) (exec (.blddbl 1 0x12345678) State.reset) =
    some (some (0x00000000, 0xBD999AB0, 0xA0423321, 0x1DDBA991, 0x091A2B3C, 0x12345678, 0x7750EDC0)) := by decide +kernel
/-- V16. -/
theorem test_blddbl_locked : after report (exec (.blddbl 2 6) (withTables Cfg.hw none (some Table.zero))) =
    some (true, .tableLocked, 2, 0, 0) := by decide +kernel

/-- V55: `cfg.W = 1`, `cfg.INIT` all ones. The unequal update counts are observable here. -/
theorem test_bldrslow : after (fun t => (t.slot 2).map (fun x => (x.entry 0, x.entry 1, x.entry 128, x.entry 255)))
      (exec (.bldrslow 2 0) (withTables (cfgOf 1 0xFFFFFFFF) (some base) none)) =
    some (some (0x93DBFD72, 0x8AC0CC33, 0xA8586539, 0x00FF0000)) := by decide +kernel
/-- V57: the source check comes before the destination check. -/
theorem test_bldrslow_order : after report (exec (.bldrslow 2 1) (withTables Cfg.hw none (some Table.zero))) =
    some (true, .tableInvalid, 1, 0, 0) ∧
    after report (exec (.bldrslow 2 0) (withTables Cfg.hw (some Table.zero) (some Table.zero))) =
      some (true, .tableLocked, 2, 0, 0) := by decide +kernel

/-- V59: only entry 128 of the source is read. -/
theorem test_bldrfast : after (fun t => (t.slot 3).map (fun x => (x.entry 0, x.entry 1, x.entry 128, x.entry 255)))
      (exec (.bldrfast 3 2) (withTables Cfg.hw none (some (Table.zero.put 128 0xE7D5EA41)))) =
    some (some (0x00000000, 0x027949D8, 0xE7D5EA41, 0x0D9E8909)) := by decide +kernel
/-- V60. -/
theorem test_bldrfast_invalid : after report (exec (.bldrfast 3 2) (withTables Cfg.hw (some Table.zero) none)) =
    some (true, .tableInvalid, 2, 0, 0) := by decide +kernel

/-- V23, V22. -/
theorem test_cinit : after (fun t => (t.acc, t.status)) (exec .cinit (withTables (cfgOf 100 0xFFFFFFFF) none none)) =
    some (0xFFFFFFFF, 0x00000002) := by decide +kernel

/-- V24, second byte; V21's carry of the upper bits. -/
theorem test_cupd : after (fun t => t.acc)
      (exec (.cupd 0 0x32) { withTables Cfg.hw (some base) none with acc := 0x51DE003A, av := true }) =
    some 0x0E8A5632 ∧ update base 0x12345678 0xAB = 0x1FC8B738 := by decide +kernel
/-- V26, V25. -/
theorem test_cupd_order : after report (exec (.cupd 1 0x31) State.reset) = some (true, .tableInvalid, 1, 0, 0) ∧
    after report (exec (.cupd 0 0x31) (withTables Cfg.hw (some Table.zero) none)) =
      some (true, .accInvalid, 0, 0, 0) := by decide +kernel

/-- V47: `cfg.INIT` all ones; `ACC` and `AV` stay. -/
theorem test_cfin : after (fun t => (t.res0, t.acc, t.av))
      (exec .cfin { withTables (cfgOf 100 0xFFFFFFFF) none none with acc := 0x340BC6D9, av := true }) =
    some (0xCBF43926, 0x340BC6D9, true) := by decide +kernel
/-- V28. -/
theorem test_cfin_invalid : after report (exec .cfin State.reset) = some (true, .accInvalid, 0, 0, 0) := by decide +kernel

/-- V41 with `cfg.INIT` all ones (R117). -/
theorem test_csum : after (fun t => (t.acc, t.av, t.res0)) (exec (.csum 0 0x100 9)
      { withTables (cfgOf 100 0xFFFFFFFF) (some base) none with
        mem := (List.range 9).map (fun k => (0x100 + k, BitVec.ofNat 8 (0x31 + k))) }) =
    some (0x340BC6D9, true, 0xCBF43926) := by decide +kernel
/-- V44, V45, V48: the range check at the top of `MEM`, in `nat`. -/
theorem test_csum_range :
    after report (exec (.csum 0 4095 2) (withTables Cfg.hw (some Table.zero) none)) =
      some (true, .range, 0, 0x00000FFF, 2) ∧
    after report (exec (.csum 0 0xFFFFFFFF 0xFFFFFFFF) (withTables Cfg.hw (some Table.zero) none)) =
      some (true, .range, 0, 0xFFFFFFFF, 0xFFFFFFFF) ∧
    after (fun t => (t.fault, t.acc, t.res0, t.av)) (exec (.csum 0 4096 0) (withTables Cfg.hw (some Table.zero) none)) =
      some (false, 0, 0, true) := by decide +kernel

/-- V61: `TBL[2][0x0B] = 0xE551027E`. -/
theorem test_croll : after (fun t => t.acc) (exec (.croll 0 2 0x2C 0x0B)
      { withTables Cfg.hw (some base) (some (Table.zero.put 0x0B 0xE551027E)) with acc := 0x5F576C37, av := true }) =
    some 0x6F6B9CFE := by decide +kernel
/-- V63. -/
theorem test_croll_order :
    after report (exec (.croll 0 2 1 2) (withTables Cfg.hw (some Table.zero) none)) = some (true, .tableInvalid, 2, 0, 0) ∧
    after report (exec (.croll 0 2 1 2) (withTables Cfg.hw (some Table.zero) (some Table.zero))) =
      some (true, .accInvalid, 0, 0, 0) := by decide +kernel

/-- V75, and the exchanged operands. -/
theorem test_cmptbl : after report (exec (.cmptbl 0 2) (withTables Cfg.hw (some base) (some (doubling 0xEDB88320 0x12345678)))) =
      some (true, .tableMismatch, 1, 0x77073096, 0xBD999AB0) ∧
    after report (exec (.cmptbl 2 0) (withTables Cfg.hw (some base) (some (doubling 0xEDB88320 0x12345678)))) =
      some (true, .tableMismatch, 1, 0xBD999AB0, 0x77073096) := by decide +kernel
/-- V77, V78. -/
theorem test_cmptbl_order : after report (exec (.cmptbl 0 0) (withTables Cfg.hw (some Table.zero) none)) =
      some (false, .none, 0, 0, 0) ∧
    after report (exec (.cmptbl 3 1) State.reset) = some (true, .tableInvalid, 3, 0, 0) := by decide +kernel

/-- V68: the base table misused as rolling table; the first mismatch is at `k = 1`. -/
theorem test_rollvfy_mismatch : after report (exec (.rollvfy 0 0 0 200) { withTables Cfg.hw (some base) none with mem := bufferB }) =
    some (true, .rollMismatch, 1, 0x6F6B9CFE, 0x1DE84708) := by decide +kernel
/-- V66, V69. -/
theorem test_rollvfy_one_window :
    after (fun t => (t.res0, t.res1, t.av)) (exec (.rollvfy 0 2 0 0)
      { withTables Cfg.hw (some base) (some Table.zero) with mem := bufferB }) = some (0x5F576C37, 0x5F576C37, false) ∧
    after report (exec (.rollvfy 0 2 3900 97) (withTables Cfg.hw (some Table.zero) (some Table.zero))) =
      some (true, .range, 0, 0x00000F3C, 0x00000061) := by decide +kernel

/-- V79. -/
theorem test_rdtbl : after (fun t => t.res0) (exec (.rdtbl 0 255) (withTables Cfg.hw (some base) none)) =
    some 0x2D02EF8D := by decide +kernel
/-- V81. -/
theorem test_rdtbl_invalid : after report (exec (.rdtbl 1 1) (withTables Cfg.hw (some Table.zero) none)) =
    some (true, .tableInvalid, 1, 0, 0) := by decide +kernel

/-- V82. -/
theorem test_nop : after (fun t => t.status) (exec .nop State.reset) = some 0 := by decide +kernel

/-! ## The step and the host's actions -/

/-- V95: an illegal packet is found before the destination is. -/
theorem test_step_illegal : after report (step { withTables Cfg.hw (some Table.zero) none with
      pending := [.issue ⟨0x01040000, 0, 0⟩] }) = some (true, .illegalCommand, 0x01040000, 0, 0) := by decide +kernel
/-- V96: with `FAULT = 1` even an illegal packet is discarded. -/
theorem test_step_sticky : after report (step
      { State.reset with fault := true, cause := .tableInvalid, finfo := 1, pending := [.issue ⟨0x05000000, 0, 0⟩] }) =
    some (true, .tableInvalid, 1, 0, 0) := by decide +kernel
/-- V96, V97: a host write takes effect while faulted, and reset keeps `MEM`. -/
theorem test_step_write_faulted : after (fun t => t.mem.read 0) (step
      { State.reset with fault := true, pending := [.writeMem 0 0x55] }) = some 0x55 := by decide +kernel
theorem test_step_reset : after (fun t => (t.mem.read 0, t.status, t.cause)) (step
      { State.reset with fault := true, cause := .range, mem := [(0, 0x55)], pending := [.reset] }) =
    some (0x55, 0, .none) := by decide +kernel
/-- V98. -/
theorem test_read_registers : (List.range 14).map (fun n => readRegister State.reset (BitVec.ofNat 32 n)) =
    [0, 0, 0, 0, 0, 0, 0, 0, 0xEDB88320, 0x64, 0, 0x1000, 0, 0] := by decide +kernel
theorem test_read_outside : step { State.reset with pending := [.readMem 4096] } = .fault .hostReadOutsideMem ∧
    step { State.reset with pending := [.writeMem 4096 1] } = .refused .hostWriteOutsideMem := ⟨rfl, rfl⟩
/-- V74: `STATUS` with slots 0 and 2 built and `AV`. -/
theorem test_status : State.status { withTables Cfg.hw (some Table.zero) (some Table.zero) with av := true } =
    0x00000052 := by decide +kernel
/-- R30. -/
theorem test_cause_codes : [Cause.none, .tableMismatch, .rollMismatch, .illegalCommand, .tableInvalid, .tableLocked,
    .accInvalid, .range].map Cause.code = [0, 1, 2, 3, 4, 5, 6, 7] := by decide
theorem test_fetch_word_runs : after (fun t => t.status) (step (State.reset.withFetchWord 32 0x01000000)) =
    some 0x10 := by decide +kernel
/-- A write of what an unlisted byte reads as removes the entry; other bytes stay. -/
theorem test_memory_canonical : Memory.write [(1, 5), (7, 9)] 7 0 = [(1, 5)] ∧
    Memory.write [(1, 5), (7, 9)] 3 2 = [(1, 5), (3, 2), (7, 9)] ∧ Memory.wf [(7, 9), (1, 5)] = false ∧
    Memory.wf [(1, 0)] = false := by decide

/-! ## Witnesses: for every statement with hypotheses, a concrete state and operands that meet all of them, with a
witness for each clause at a boundary of its range -/

/-- A linear table that is not zero. -/
def linearTable : Table := Table.ofFn (fun b => b.zext)

theorem linearTable_linear : linearTable.Linear := by
  intro a b
  simp [linearTable, Byte.zext]

/-- Slots 0 and 2 built, slots 1 and 3 free, the accumulator valid. -/
def ready : State := { withTables Cfg.hw (some base) (some linearTable) with acc := 0x12345678, av := true }

/-- A faulted state. -/
def stopped : State := { ready with fault := true, cause := .range }

/-- A state in which the host's only action left is `a`. -/
def asked (s : State) (a : HostAction) : State := { s with pending := [a] }

theorem ready_facts : ready.cfg.legal = true ∧ ready.fault = false ∧ ready.av = true ∧ ready.slot 0 = some base ∧
    ready.slot 2 = some linearTable ∧ ready.slot 1 = none ∧ ready.slot 3 = none := ⟨rfl, rfl, rfl, rfl, rfl, rfl, rfl⟩

theorem ready_inv : ready.Inv where
  cfgLegal := by decide
  memWf := by decide
  memWithin := by decide
  faultIffCause := by decide
  faultRegsClear := by decide
  accClear := by decide

theorem asked_inv (s : State) (a : HostAction) (h : s.Inv) : (asked s a).Inv where
  cfgLegal := h.cfgLegal
  memWf := h.memWf
  memWithin := h.memWithin
  faultIffCause := h.faultIffCause
  faultRegsClear := h.faultRegsClear
  accClear := h.accClear

theorem witness_EncodeOfDecode : decode ⟨0x14080B2C, 0, 0⟩ = .ok (.croll 0 2 0x2C 0x0B) := by decide

theorem witness_DecodeSelectsTableRow : (0x21080000 : Word) &&& Opcode.maskWord .rollvfy = Opcode.matchWord .rollvfy ∧
    Format.usesArg0 .tt = false ∧ Format.usesArg1 .ts = false := by decide

theorem witness_StepRunsIssuedCommand : (asked ready (.issue ⟨0x12000000, 0, 0⟩)).cfg.legal = true ∧
    (asked ready (.issue ⟨0x12000000, 0, 0⟩)).fault = false ∧
    (asked ready (.issue ⟨0x12000000, 0, 0⟩)).pending = [.issue ⟨0x12000000, 0, 0⟩] ∧
    decode ⟨0x12000000, 0, 0⟩ = .ok .cfin := by decide

theorem witness_IllegalCommandFault : (asked ready (.issue ⟨0x05000000, 0, 0⟩)).cfg.legal = true ∧
    (asked ready (.issue ⟨0x05000000, 0, 0⟩)).fault = false ∧
    decode ⟨0x05000000, 0, 0⟩ = .error .unassignedOpcode := by decide

theorem witness_FaultedBlockDiscardsPackets : stopped.cfg.legal = true ∧ stopped.fault = true ∧
    (asked stopped (.issue ⟨0, 0, 0⟩)).pending = [.issue ⟨0, 0, 0⟩] ∧
    (asked stopped (.readReg 0)).pending = [.readReg 0] ∧ 4095 < stopped.cfg.memSize ∧
    (asked stopped (.writeMem 4095 1)).pending = [.writeMem 4095 1] ∧
    (asked stopped (.writeMem 4095 1)).pending.head? ≠ some .reset := by decide

theorem witness_FaultedBlockIsFrozen : (asked stopped (.readMem 0)).fault = true ∧
    (asked stopped (.readMem 0)).pending.head? ≠ some .reset ∧
    ∃ t, step (asked stopped (.readMem 0)) = .next t := ⟨rfl, by decide, _, rfl⟩

theorem witness_ResetAction : (asked stopped .reset).cfg.legal = true ∧ (asked stopped .reset).pending = [.reset] := by
  decide

theorem witness_HostMemoryAccess : ready.cfg.legal = true ∧ ready.mem.wf = true ∧ 4095 < ready.cfg.memSize ∧
    ¬ 4096 < ready.cfg.memSize ∧ (asked ready (.writeMem 4095 7)).pending = [.writeMem 4095 7] ∧
    (asked ready (.writeMem 4096 7)).pending = [.writeMem 4096 7] ∧
    (asked ready (.readMem 4095)).pending = [.readMem 4095] ∧ ∃ t, exec .cfin ready = .next t :=
  ⟨by decide, by decide, by decide, by decide, rfl, rfl, rfl, _, rfl⟩

theorem witness_HostRegisterReads : ready.cfg.legal = true ∧
    (asked ready (.readReg 11)).pending = [.readReg 11] ∧ (asked ready (.readReg 12)).pending = [.readReg 12] ∧
    (asked ready (.readReg 0xFFFFFFFF)).pending = [.readReg 0xFFFFFFFF] ∧
    (asked ready .observeFault).pending = [.observeFault] := by decide

theorem witness_StepsThatTakeNoAction : State.reset.cfg.legal = true ∧ State.reset.pending = [] ∧
    ¬ (1 ≤ (cfgOf 0 0).w ∧ (cfgOf 0 0).w ≤ 2 ^ 32 - 1 ∧ 1 ≤ (cfgOf 0 0).memSize ∧ (cfgOf 0 0).memSize ≤ 2 ^ 32 - 1) ∧
    ¬ (1 ≤ (cfgOf 4294967296 0).w ∧ (cfgOf 4294967296 0).w ≤ 2 ^ 32 - 1 ∧ 1 ≤ (cfgOf 4294967296 0).memSize ∧
      (cfgOf 4294967296 0).memSize ≤ 2 ^ 32 - 1) := by decide

theorem witness_EveryMemoryContentExists : Memory.read [(4095, 0xFF)] 4095 = 0xFF ∧ 4095 < 4096 := by decide

theorem witness_StepKeepsInvariant : (asked ready (.writeMem 4095 0xFF)).Inv ∧
    ∃ t, step (asked ready (.writeMem 4095 0xFF)) = .next t := ⟨asked_inv _ _ ready_inv, _, rfl⟩

theorem witness_WellFormedProgramNeverStops : (asked ready (.readMem 4095)).Inv ∧
    programWf (asked ready (.readMem 4095)).cfg (asked ready (.readMem 4095)).pending = true :=
  ⟨asked_inv _ _ ready_inv, by decide⟩

theorem witness_ConfigurationNeverChanges : ∃ t, step (asked ready .reset) = .next t := ⟨_, rfl⟩

theorem witness_TablesAreWriteOnce : (asked ready (.issue ⟨0x01010000, 0, 0⟩)).slot 2 = some linearTable ∧
    (asked ready (.issue ⟨0x01010000, 0, 0⟩)).pending.head? ≠ some .reset ∧
    ∃ t, step (asked ready (.issue ⟨0x01010000, 0, 0⟩)) = .next t := ⟨rfl, by decide, _, rfl⟩

theorem witness_FaultsArePrecise : State.reset.fault = false ∧ ∃ t, exec .cfin State.reset = .next t ∧ t.fault = true :=
  ⟨rfl, _, rfl, rfl⟩

theorem witness_CommandFrame : ∃ t, exec (.rdtbl 0 1) ready = .next t ∧ t.fault = false := ⟨_, rfl, rfl⟩

theorem witness_SourceSlotMustBeBuilt : ready.fault = false ∧ ready.slot 1 = none ∧ ready.slot 3 = none ∧
    ready.slot 0 ≠ none ∧ State.reset.slot 0 = none := ⟨rfl, rfl, rfl, nofun, rfl⟩

theorem witness_DestinationSlotMustBeFree : ready.fault = false ∧ ready.slot 0 ≠ none ∧ ready.slot 2 ≠ none :=
  ⟨rfl, nofun, nofun⟩

theorem witness_AccumulatorMustBeValid : (withTables Cfg.hw (some base) (some linearTable)).fault = false ∧
    (withTables Cfg.hw (some base) (some linearTable)).av = false ∧
    (withTables Cfg.hw (some base) (some linearTable)).slot 0 ≠ none ∧
    (withTables Cfg.hw (some base) (some linearTable)).slot 2 ≠ none := ⟨rfl, rfl, nofun, nofun⟩

/-- The least sums out of range: 4097 for `CSUM` and for `ROLLVFY` with `cfg.W = 100`. -/
theorem witness_BufferMustLieInMemory : ready.fault = false ∧ ready.slot 0 ≠ none ∧ ready.slot 2 ≠ none ∧
    (4095 : Word).toNat + (2 : Word).toNat > ready.cfg.memSize ∧
    (3900 : Word).toNat + ready.cfg.w + (97 : Word).toNat > ready.cfg.memSize := ⟨rfl, nofun, nofun, by decide, by decide⟩

theorem witness_OneSlotNamedTwice : ready.fault = false ∧ ready.slot 1 = none ∧ ready.slot 0 = some base ∧
    ready.av = true ∧
    ∃ u, exec (.rollvfy 0 0 0xFFFFFFFF 0) ready = .next u ∧ u.fault = true := ⟨rfl, rfl, rfl, rfl, _, rfl, rfl⟩

/-- For `BldrefBuildsReferenceTable`, `BlddblBuildsDoublingTable`: the lowest and the highest slot. -/
theorem witness_base_builds : State.reset.fault = false ∧ State.reset.slot 0 = none ∧ State.reset.slot 3 = none := by
  refine ⟨rfl, rfl, rfl⟩

/-- For `BldrslowBuildsRollingTable`, `BldrfastBuildsFromEntry128`. -/
theorem witness_rolling_builds : ready.fault = false ∧ ready.slot 0 = some base ∧ ready.slot 1 = none :=
  ⟨rfl, rfl, rfl⟩

/-- For `CinitStartsChecksum`, `CupdFoldsOneByte`, `CfinFinishesIntoRes0`, `CrollRollsOneByte`, `CmptblVerdict` and
`RdtblReadsEntry`; the clauses of `CmptblVerdict` by a slot named twice and by two slots that differ at index 1. -/
theorem witness_accumulator_commands : ready.fault = false ∧ ready.av = true ∧ ready.slot 0 = some base ∧
    ready.slot 2 = some linearTable ∧ base.entry 1 ≠ linearTable.entry 1 ∧ base.entry 0 = linearTable.entry 0 := by
  refine ⟨rfl, rfl, rfl, rfl, by decide +kernel, by decide +kernel⟩

/-- For `CsumChecksumsBuffer`, `EmptyBufferChecksum` (the empty buffer at the top of `MEM`), `CsumExtendsByCupd` (its
last byte is the last of `MEM`). -/
theorem witness_buffer_commands : ready.fault = false ∧ ready.slot 0 = some base ∧
    (4096 : Word).toNat + (0 : Word).toNat ≤ ready.cfg.memSize ∧ (4096 : Word).toNat ≤ ready.cfg.memSize ∧
    (4094 : Word).toNat + ((1 : Word).toNat + 1) ≤ ready.cfg.memSize ∧ (1 : Word) ≠ 0xFFFFFFFF :=
  ⟨rfl, rfl, by decide, by decide, by decide, by decide⟩

theorem witness_CrollWithZeroTableIsCupd : (withTables Cfg.hw (some base) (some Table.zero)).slot 0 = some base ∧
    (withTables Cfg.hw (some base) (some Table.zero)).slot 2 = some Table.zero ∧ ∀ i, Table.zero.entry i = 0 :=
  ⟨rfl, rfl, fun i => by simp⟩

/-- The last range that fits, with a position (0) at which the two paths agree; and, with the base table misused as
rolling table, a lowest position (1, the last of the loop) at which they differ. -/
theorem witness_RollvfyVerdict :
    let s : State := { withTables (cfgOf 1 0) (some base) none with mem := [(0, 1), (1, 2)] }
    (ready.fault = false ∧ ready.slot 0 = some base ∧ ready.slot 2 = some linearTable ∧
      (3996 : Word).toNat + ready.cfg.w + (0 : Word).toNat ≤ ready.cfg.memSize ∧
      ∀ k, k ≤ (0 : Word).toNat → checksum ready.cfg base ready.mem (3996 + k) ready.cfg.w =
        finish ready.cfg (incrementalState ready.cfg base linearTable ready.mem 3996 k)) ∧
    s.fault = false ∧ s.slot 0 = some base ∧ (0 : Word).toNat + s.cfg.w + (1 : Word).toNat ≤ s.cfg.memSize ∧
      checksum s.cfg base s.mem (0 + 1) s.cfg.w ≠ finish s.cfg (incrementalState s.cfg base base s.mem 0 1) ∧
      ∀ j, j < 1 → checksum s.cfg base s.mem (0 + j) s.cfg.w = finish s.cfg (incrementalState s.cfg base base s.mem 0 j) := by
  refine ⟨⟨rfl, rfl, rfl, by decide, ?_⟩, rfl, rfl, by decide, by decide +kernel, ?_⟩
  · intro k hk
    obtain rfl : k = 0 := by simpa using hk
    rfl
  · intro j hj
    obtain rfl : j = 0 := by omega
    rfl

/-- For `EngineIsLinear`, `DoublingInvariantIsLinearity`, `WhichTablesAreLinear`, `FoldClosedForm` and the first clause
of `RollingEquivalence`: a linear table, and the two conditions under which `K = 0`. -/
theorem witness_linear_table : linearTable.Linear ∧ Cfg.hw.init = 0 ∧ update linearTable 0 0 = 0 :=
  ⟨linearTable_linear, rfl, by decide +kernel⟩

theorem witness_EntryZeroIsZero : Cfg.hw.init = 0 ∧ linearTable.entry 0 = 0 := ⟨rfl, by decide +kernel⟩

theorem witness_ReferenceEqualsDoubling :
    (withTables Cfg.hw (some base) (some (doubling 0xEDB88320 0xEDB88320))).fault = false ∧
    (withTables Cfg.hw (some base) (some (doubling 0xEDB88320 0xEDB88320))).slot 0 = some (referenceTable Cfg.hw.poly) ∧
    (withTables Cfg.hw (some base) (some (doubling 0xEDB88320 0xEDB88320))).slot 2 =
      some (doubling Cfg.hw.poly Cfg.hw.poly) := ⟨rfl, rfl, rfl⟩

/-- An initial value that is not zero, a window of one byte, and the last range that fits. -/
theorem witness_RollingEquivalence :
    let c := cfgOf 1 0xFFFFFFFF
    let s : State := { withTables c (some linearTable) (some (rollingTable c linearTable)) with
                       acc := fold c linearTable [] 5 1, av := true }
    s.fault = false ∧ s.slot 0 = some linearTable ∧ linearTable.Linear ∧
      s.slot 2 = some (rollingTable s.cfg linearTable) ∧ s.av = true ∧ s.acc = fold s.cfg linearTable s.mem 5 s.cfg.w ∧
      (4095 : Word).toNat + s.cfg.w + (0 : Word).toNat ≤ s.cfg.memSize :=
  ⟨rfl, rfl, linearTable_linear, rfl, rfl, rfl, by decide⟩

/-- `cfg.INIT = 0` with the reference table as base. -/
theorem witness_SlowEqualsFastRollingTable :
    let slow := rollingTable Cfg.hw base
    let s := withTables Cfg.hw (some slow) (some (fastRollingTable Cfg.hw slow))
    s.fault = false ∧ base = referenceTable s.cfg.poly ∧ s.cfg.init = 0 ∧ s.slot 0 = some (rollingTable s.cfg base) ∧
      s.slot 2 = some (fastRollingTable s.cfg (rollingTable s.cfg base)) := ⟨rfl, rfl, rfl, rfl, rfl⟩

/-- `cfg.INIT = 0` with the doubling table as base, for a window of one byte. -/
theorem witness_SlowEqualsFastRollingTable_doubling :
    let c := cfgOf 1 0
    let x := doubling 0xEDB88320 0xEDB88320
    let s := withTables c (some (rollingTable c x)) (some (fastRollingTable c (rollingTable c x)))
    s.fault = false ∧ x = doubling s.cfg.poly s.cfg.poly ∧ s.cfg.init = 0 ∧ s.slot 0 = some (rollingTable s.cfg x) ∧
      s.slot 2 = some (fastRollingTable s.cfg (rollingTable s.cfg x)) := ⟨rfl, rfl, rfl, rfl, rfl⟩

/-- `K = 0` with `cfg.INIT` not 0: the bit-round of this polynomial leaves the initial value as it is (it is odd and
`(init >> 1) ^ poly = init`), and so does a zero byte. The base is the reference table, and then the doubling table. -/
theorem witness_SlowEqualsFastRollingTable_constant :
    let c : Cfg := { poly := 0x82F63B78, w := 100, init := 0xFCA42DAF, memSize := 4096 }
    let x := referenceTable c.poly
    let y := doubling c.poly c.poly
    let s := withTables c (some (rollingTable c x)) (some (fastRollingTable c (rollingTable c x)))
    let t := withTables c (some (rollingTable c y)) (some (fastRollingTable c (rollingTable c y)))
    c.legal = true ∧ c.init ≠ 0 ∧ bitRound c.poly c.init = c.init ∧ rollConstant c x = 0 ∧ rollConstant c y = 0 ∧
      s.cfg = c ∧ s.fault = false ∧ s.slot 0 = some (rollingTable c x) ∧
      s.slot 2 = some (fastRollingTable c (rollingTable c x)) ∧
      t.cfg = c ∧ t.fault = false ∧ t.slot 0 = some (rollingTable c y) ∧
      t.slot 2 = some (fastRollingTable c (rollingTable c y)) :=
  ⟨by decide, by decide, by decide, by decide +kernel, by decide +kernel, rfl, rfl, rfl, rfl, rfl, rfl, rfl, rfl⟩

/-- R159: with `cfg.INIT` all ones the constant is not zero. -/
theorem witness_FastTableFailsForNonzeroConstant :
    let c := cfgOf 1 0xFFFFFFFF
    let slow := rollingTable c linearTable
    let s := withTables c (some slow) (some (fastRollingTable c slow))
    s.fault = false ∧ linearTable.Linear ∧ rollConstant s.cfg linearTable ≠ 0 ∧
      s.slot 0 = some (rollingTable s.cfg linearTable) ∧
      s.slot 2 = some (fastRollingTable s.cfg (rollingTable s.cfg linearTable)) :=
  ⟨rfl, linearTable_linear, by decide +kernel, rfl, rfl⟩

/-- Two different states and two different destinations with one source content. -/
theorem witness_BuildsDependOnlyOnTheirInputs : ready.cfg = (withTables Cfg.hw none (some base)).cfg ∧
    ready.fault = false ∧ (withTables Cfg.hw none (some base)).fault = false ∧ ready.slot 1 = none ∧
    (withTables Cfg.hw none (some base)).slot 0 = none ∧ ready.slot 0 = some base ∧
    (withTables Cfg.hw none (some base)).slot 2 = some base := ⟨rfl, rfl, rfl, rfl, rfl, rfl, rfl⟩

/-- Two memories that differ outside a buffer of one byte at the top of `MEM`. -/
theorem witness_CsumDependsOnlyOnTableAndBuffer :
    let s1 : State := { ready with mem := [(0, 1), (4095, 9)] }
    let s2 : State := { withTables Cfg.hw none (some base) with mem := [(4095, 9)] }
    s1.cfg = s2.cfg ∧ s1.fault = false ∧ s2.fault = false ∧ s1.slot 0 = some base ∧ s2.slot 2 = some base ∧
      (4095 : Word).toNat + (1 : Word).toNat ≤ s1.cfg.memSize ∧
      ∀ k, k < (1 : Word).toNat → s1.mem.read ((4095 : Word).toNat + k) = s2.mem.read ((4095 : Word).toNat + k) := by
  refine ⟨rfl, rfl, rfl, rfl, rfl, by decide, ?_⟩
  decide

/-- Two states with different tables and memories in which a command faults with RANGE. -/
theorem witness_OnlyMismatchFaultsDependOnData :
    let s1 : State := { withTables Cfg.hw (some base) none with mem := [(7, 1)] }
    let s2 : State := withTables Cfg.hw (some linearTable) none
    s1.cfg = s2.cfg ∧ s1.fault = false ∧ s2.fault = false ∧ s1.av = s2.av ∧ (∀ u, s1.tv u = s2.tv u) ∧
      ∃ t1 t2, exec (.csum 0 4096 1) s1 = .next t1 ∧ exec (.csum 0 4096 1) s2 = .next t2 ∧ t1.fault = true ∧
        t1.cause ≠ .tableMismatch ∧ t1.cause ≠ .rollMismatch := by
  refine ⟨rfl, rfl, rfl, rfl, ?_, _, _, rfl, rfl, rfl, nofun, nofun⟩
  intro u
  fin_cases u <;> rfl

end Sys2Proof.Tests
end

section
/-! What a command and a step do, and the statements about the state (spec/10_state.md). The outcomes of `exec`
(`exec_cases`) and of `step` (`step_cases`, `hostAct_cases`, `issue_cases`) are stated as two eliminators, one case per
update of the state; each frame or invariant lemma is one case analysis by them. -/

namespace Sys2Proof.Machine

/-- The slot a command writes when it completes (R23). -/
def destination : Instr → Option Slot
  | .bldref td | .blddbl td _ | .bldrslow td _ | .bldrfast td _ => some td
  | .nop | .cinit | .cupd _ _ | .cfin | .csum _ _ _ | .croll _ _ _ _ | .cmptbl _ _ | .rollvfy _ _ _ _ | .rdtbl _ _ =>
    none

theorem destination_of_notABuild {i : Instr} (h : notABuild i = true) : destination i = none := by
  cases i with
  | bldref | blddbl | bldrslow | bldrfast => cases h
  | _ => rfl

/-- What a command can do to the state: nothing, enter a fault, or make its own writes. The case analysis of every
proof about a command that answers a next state. -/
theorem exec_elim {s : State} {motive : (i : Instr) → (t : State) → exec i s = .next t → Prop}
    (unchanged : ∀ i h, motive i s h)
    (fault : ∀ i (f : FaultReport), f.cause ≠ .none → ∀ h, motive i (s.enterFault f) h)
    (build : ∀ i td x, destination i = some td → s.slot td = none → ∀ h, motive i (s.installTable td x) h)
    (cinit : ∀ v h, motive .cinit (s.startAcc v) h)
    (cupd : ∀ ts b v, s.av = true → ∀ h, motive (.cupd ts b) (s.setAcc v) h)
    (cfin : ∀ v h, motive .cfin (s.setRes0 v) h)
    (csum : ∀ ts addr len v w h, motive (.csum ts addr len) ((s.startAcc v).setRes0 w) h)
    (croll : ∀ tb tr bin bout v, s.av = true → ∀ h, motive (.croll tb tr bin bout) (s.setAcc v) h)
    (rollvfy : ∀ tb tr addr n v w h, motive (.rollvfy tb tr addr n) ((s.setRes0 v).setRes1 w) h)
    (rdtbl : ∀ ts idx v h, motive (.rdtbl ts idx) (s.setRes0 v) h)
    (i : Instr) (t : State) (h : exec i s = .next t) : motive i t h := by
  rcases exec_cases h with ⟨-, rfl⟩ | ⟨-, ⟨f, hc, rfl⟩ | hdone⟩
  · exact unchanged i h
  · exact fault i f hc h
  cases i with
  | nop => cases hdone; exact unchanged _ h
  | bldref td => obtain ⟨hfree, x, rfl⟩ := hdone; exact build _ td x rfl hfree h
  | blddbl td seed => obtain ⟨hfree, x, rfl⟩ := hdone; exact build _ td x rfl hfree h
  | bldrslow td ts => obtain ⟨-, hfree, x, rfl⟩ := hdone; exact build _ td x rfl hfree h
  | bldrfast td ts => obtain ⟨-, hfree, x, rfl⟩ := hdone; exact build _ td x rfl hfree h
  | cinit => cases hdone; exact cinit _ h
  | cupd ts b => obtain ⟨-, ha, v, rfl⟩ := hdone; exact cupd ts b v ha h
  | cfin => obtain ⟨-, rfl⟩ := hdone; exact cfin _ h
  | csum ts addr len => obtain ⟨-, -, v, w, rfl⟩ := hdone; exact csum ts addr len v w h
  | croll tb tr bin bout => obtain ⟨-, -, ha, v, rfl⟩ := hdone; exact croll tb tr bin bout v ha h
  | cmptbl ta tb => obtain ⟨-, -, rfl⟩ := hdone; exact unchanged _ h
  | rollvfy tb tr addr n => obtain ⟨-, -, -, v, w, rfl⟩ := hdone; exact rollvfy tb tr addr n v w h
  | rdtbl ts idx => obtain ⟨-, v, rfl⟩ := hdone; exact rdtbl ts idx v h

/-! ### The frame of a command -/

section CommandFrame

variable {s t : State} {i : Instr}

theorem exec_cfg_eq (h : exec i s = .next t) : t.cfg = s.cfg := by cases i, t, h using exec_elim <;> rfl

theorem exec_pending_eq (h : exec i s = .next t) : t.pending = s.pending := by cases i, t, h using exec_elim <;> rfl

theorem exec_replies_eq (h : exec i s = .next t) : t.replies = s.replies := by cases i, t, h using exec_elim <;> rfl

theorem exec_mem_eq (h : exec i s = .next t) : t.mem = s.mem := by cases i, t, h using exec_elim <;> rfl

/-- R23: a command writes at most its destination slot. -/
theorem exec_slot_eq (h : exec i s = .next t) {u : Slot} (hu : destination i ≠ some u) : t.slot u = s.slot u := by
  cases i, t, h using exec_elim with
  | build i td x hd hfree =>
    have hne : u ≠ td := by rintro rfl; exact hu hd
    simp [hne]
  | _ => rfl

/-- R23: a build demands an empty destination, so no command changes the content of a built slot. -/
theorem exec_slot_of_built (h : exec i s = .next t) {u : Slot} {x : Table} (hu : s.slot u = some x) :
    t.slot u = some x := by
  cases i, t, h using exec_elim with
  | build i td y hd hfree =>
    have hne : u ≠ td := by rintro rfl; simp [hu] at hfree
    simpa [hne] using hu
  | _ => exact hu

/-- R25: `AV` is written by `CINIT` and `CSUM` only. -/
theorem exec_av_eq (h : exec i s = .next t) (hcinit : i ≠ .cinit) (hcsum : ∀ ts addr len, i ≠ .csum ts addr len) :
    t.av = s.av := by
  cases i, t, h using exec_elim with
  | cinit => exact absurd rfl hcinit
  | csum ts addr len => exact absurd rfl (hcsum ts addr len)
  | _ => rfl

/-- R25: `ACC` is written by `CINIT`, `CSUM`, `CUPD` and `CROLL` only. -/
theorem exec_acc_eq (h : exec i s = .next t) (hcinit : i ≠ .cinit) (hcsum : ∀ ts addr len, i ≠ .csum ts addr len)
    (hcupd : ∀ ts b, i ≠ .cupd ts b) (hcroll : ∀ tb tr bin bout, i ≠ .croll tb tr bin bout) : t.acc = s.acc := by
  cases i, t, h using exec_elim with
  | cinit => exact absurd rfl hcinit
  | csum ts addr len => exact absurd rfl (hcsum ts addr len)
  | cupd ts b => exact absurd rfl (hcupd ts b)
  | croll tb tr bin bout => exact absurd rfl (hcroll tb tr bin bout)
  | _ => rfl

/-- R26: `RES0` is written by `CFIN`, `CSUM`, `RDTBL` and `ROLLVFY` only. -/
theorem exec_res0_eq (h : exec i s = .next t) (hcfin : i ≠ .cfin) (hcsum : ∀ ts addr len, i ≠ .csum ts addr len)
    (hrdtbl : ∀ ts idx, i ≠ .rdtbl ts idx) (hrollvfy : ∀ tb tr addr n, i ≠ .rollvfy tb tr addr n) :
    t.res0 = s.res0 := by
  cases i, t, h using exec_elim with
  | cfin => exact absurd rfl hcfin
  | csum ts addr len => exact absurd rfl (hcsum ts addr len)
  | rdtbl ts idx => exact absurd rfl (hrdtbl ts idx)
  | rollvfy tb tr addr n => exact absurd rfl (hrollvfy tb tr addr n)
  | _ => rfl

/-- R26: `RES1` is written by `ROLLVFY` only. -/
theorem exec_res1_eq (h : exec i s = .next t) (hrollvfy : ∀ tb tr addr n, i ≠ .rollvfy tb tr addr n) :
    t.res1 = s.res1 := by
  cases i, t, h using exec_elim with
  | rollvfy tb tr addr n => exact absurd rfl (hrollvfy tb tr addr n)
  | _ => rfl

/-- A command that ends with `FAULT = 0` leaves the fault registers. -/
theorem exec_faultRegs_eq (h : exec i s = .next t) (ht : t.fault = false) :
    t.fault = s.fault ∧ t.cause = s.cause ∧ t.finfo = s.finfo ∧ t.fval0 = s.fval0 ∧ t.fval1 = s.fval1 := by
  cases i, t, h using exec_elim with
  | fault => cases ht
  | _ => exact ⟨rfl, rfl, rfl, rfl, rfl⟩

end CommandFrame

/-! ### What a step does -/

/-- What a step that answers a next state does: it waits, or it takes the host's next action with the update that
action makes. The case analysis of every proof about a step. -/
theorem step_elim {s : State} {motive : (t : State) → step s = .next t → Prop}
    (wait : ∀ h, motive s h)
    (reset : ∀ rest, s.pending = .reset :: rest → ∀ h, motive (s.setPending rest).resetBlock h)
    (writeMem : ∀ rest a v, a < s.cfg.memSize → ∀ h, motive ((s.setPending rest).writeMem a v) h)
    (reply : ∀ rest r h, motive ((s.setPending rest).reply r) h)
    (discard : ∀ rest, s.fault = true → ∀ h, motive (s.setPending rest) h)
    (illegal : ∀ rest (f : FaultReport), s.fault = false → f.cause ≠ .none →
      ∀ h, motive ((s.setPending rest).enterFault f) h)
    (command : ∀ rest i t, s.fault = false → exec i (s.setPending rest) = .next t → ∀ h, motive t h)
    (t : State) (h : step s = .next t) : motive t h := by
  obtain ⟨-, ⟨-, rfl⟩ | ⟨a, rest, hp, ha⟩⟩ := step_cases h
  · exact wait h
  rcases hostAct_cases ha with ⟨rfl, rfl⟩ | ⟨b, v, -, hb, rfl⟩ | ⟨r, -, -, rfl⟩ | ⟨p, -, hi⟩
  · exact reset rest hp h
  · exact writeMem rest b v hb h
  · exact reply rest r h
  rcases issue_cases hi with ⟨hf, rfl⟩ | ⟨hf, ⟨e, -, rfl⟩ | ⟨i, -, he⟩⟩
  · exact discard rest hf h
  · exact illegal rest _ hf (by simp) h
  · exact command rest i t hf he h

/-! ### The invariant -/

namespace State.Inv

variable {s t : State} {i : Instr}

theorem setPending (h : s.Inv) (rest : List HostAction) : (s.setPending rest).Inv :=
  ⟨h.cfgLegal, h.memWf, h.memWithin, h.faultIffCause, h.faultRegsClear, h.accClear⟩

theorem reply (h : s.Inv) (r : Reply) : (s.reply r).Inv :=
  ⟨h.cfgLegal, h.memWf, h.memWithin, h.faultIffCause, h.faultRegsClear, h.accClear⟩

theorem resetBlock (h : s.Inv) : s.resetBlock.Inv where
  cfgLegal := h.cfgLegal
  memWf := h.memWf
  memWithin := h.memWithin
  faultIffCause := by simp
  faultRegsClear := by simp
  accClear := by simp

theorem writeMem (h : s.Inv) {a : Nat} (ha : a < s.cfg.memSize) (v : Byte) : (s.writeMem a v).Inv where
  cfgLegal := h.cfgLegal
  memWf := Memory.wf_write h.memWf a v
  memWithin := Memory.within_write h.memWithin ha
  faultIffCause := h.faultIffCause
  faultRegsClear := h.faultRegsClear
  accClear := h.accClear

theorem enterFault (h : s.Inv) {f : FaultReport} (hc : f.cause ≠ .none) : (s.enterFault f).Inv where
  cfgLegal := h.cfgLegal
  memWf := h.memWf
  memWithin := h.memWithin
  faultIffCause := by simp [hc]
  faultRegsClear := by simp
  accClear := h.accClear

/-- R36 (c) turns on the two ways `ACC` is written: with `AV <- 1`, or after the check that `AV = 1`. -/
theorem of_exec (h : s.Inv) (he : exec i s = .next t) : t.Inv := by
  obtain ⟨hcfg, hwf, hin, hcause, hregs, hacc⟩ := h
  cases i, t, he using exec_elim with
  | unchanged => exact ⟨hcfg, hwf, hin, hcause, hregs, hacc⟩
  | fault _ _ hc => exact enterFault ⟨hcfg, hwf, hin, hcause, hregs, hacc⟩ hc
  | build | cfin | rollvfy | rdtbl => exact ⟨hcfg, hwf, hin, hcause, hregs, hacc⟩
  | cinit | csum => exact ⟨hcfg, hwf, hin, hcause, hregs, by simp⟩
  | cupd _ _ _ ha | croll _ _ _ _ _ ha => exact ⟨hcfg, hwf, hin, hcause, hregs, by simp [ha]⟩

end State.Inv

/-- Settles O20: each update a step can make keeps `State.Inv`. -/
theorem stepKeepsInvariant : Obligations.StepKeepsInvariant := by
  intro s t hs hstep
  cases t, hstep using step_elim with
  | wait => exact hs
  | reset => exact (hs.setPending _).resetBlock
  | writeMem rest a v ha => exact (hs.setPending rest).writeMem ha v
  | reply rest r => exact (hs.setPending rest).reply r
  | discard rest => exact hs.setPending rest
  | illegal rest _ _ hc => exact (hs.setPending rest).enterFault hc
  | command rest _ _ _ h => exact (hs.setPending rest).of_exec h

/-- Settles O19: the machine after power-up lists no memory and has no fault and no accumulator. -/
theorem resetSatisfiesInvariant : Obligations.ResetSatisfiesInvariant where
  cfgLegal := by decide
  memWf := rfl
  memWithin := rfl
  faultIffCause := ⟨fun _ => rfl, fun _ => rfl⟩
  faultRegsClear _ := ⟨rfl, rfl, rfl⟩
  accClear _ := rfl

/-- Settles O11: with `FAULT = 1` a packet is discarded, and no other action but reset writes the block's registers,
flags or tables. -/
theorem faultedBlockIsFrozen : Obligations.FaultedBlockIsFrozen := by
  intro s t hf hnr hstep
  cases t, hstep using step_elim with
  | reset _ hp => simp [hp] at hnr
  | illegal _ _ hf' => simp [hf] at hf'
  | command _ _ _ hf' => simp [hf] at hf'
  | wait | writeMem | reply | discard => rfl

/-- Settles O22: no update of `step_elim` writes `cfg`. -/
theorem configurationNeverChanges : Obligations.ConfigurationNeverChanges := by
  intro s t hstep
  cases t, hstep using step_elim with
  | command rest _ _ _ h => exact exec_cfg_eq (s := s.setPending rest) h
  | _ => rfl

/-- Settles O23: only reset empties a slot, and a build demands an empty one. -/
theorem tablesAreWriteOnce : Obligations.TablesAreWriteOnce := by
  intro s t u x hu hnr hstep
  cases t, hstep using step_elim with
  | reset _ hp => simp [hp] at hnr
  | command _ _ _ _ h => exact exec_slot_of_built h hu
  | wait | writeMem | reply | discard | illegal => exact hu

/-- Settles O26, field by field. -/
theorem commandFrame : Obligations.CommandFrame := by
  intro i s t h
  refine ⟨exec_cfg_eq h, exec_pending_eq h, exec_replies_eq h, fun a => by rw [exec_mem_eq h], fun hb u => ?_,
    fun u h1 h2 h3 h4 => ?_, fun ⟨hcinit, hcsum⟩ => ⟨exec_av_eq h hcinit hcsum, fun ⟨hcupd, hcroll⟩ => ?_⟩,
    fun ⟨hcfin, hcsum, hrdtbl, hrollvfy⟩ => ?_, exec_res1_eq h, exec_faultRegs_eq h⟩
  · exact exec_slot_eq h (by simp [destination_of_notABuild hb])
  · refine exec_slot_eq h fun hd => ?_
    cases i with
    | bldref td => exact h1 td rfl (by simpa [destination, eq_comm] using hd)
    | blddbl td seed => exact h2 td seed rfl (by simpa [destination, eq_comm] using hd)
    | bldrslow td ts => exact h3 td ts rfl (by simpa [destination, eq_comm] using hd)
    | bldrfast td ts => exact h4 td ts rfl (by simpa [destination, eq_comm] using hd)
    | _ => cases hd
  · exact exec_acc_eq h hcinit hcsum hcupd hcroll
  · exact exec_res0_eq h hcfin hcsum hrdtbl hrollvfy

/-! ### Every content of `MEM` -/

/-- The content is written byte by byte, lowest address first. -/
theorem Memory.exists_read_eq_below (size : Nat) (content : Nat → Byte) {n : Nat} (hn : n ≤ size) :
    ∃ m : Memory, m.wf = true ∧ m.within size = true ∧ ∀ a, a < n → m.read a = content a := by
  induction n with
  | zero => exact ⟨[], rfl, rfl, by simp⟩
  | succ n ih =>
    obtain ⟨m, hwf, hin, hread⟩ := ih (by omega)
    refine ⟨m.write n (content n), Memory.wf_write hwf n _, Memory.within_write hin (by omega), fun a ha => ?_⟩
    rw [Memory.read_write hwf]
    split
    · next h => rw [h]
    · next h => exact hread a (by omega)

/-- Settles O18, by writing every byte below the size. -/
theorem everyMemoryContentExists : Obligations.EveryMemoryContentExists :=
  fun size content => Memory.exists_read_eq_below size content le_rfl

/-! ### One slot named twice -/

/-- R24: a rolling build into its own source faults, by whether the slot is built. -/
theorem exec_rollingBuild_same {s : State} {t : Slot} {i : Instr} (hf : s.fault = false)
    (hi : i = .bldrslow t t ∨ i = .bldrfast t t) :
    exec i s = .next (s.enterFault
      ⟨if s.slot t = none then .tableInvalid else .tableLocked, slotWord t, 0, 0⟩) := by
  cases hs : s.slot t with
  | none => rcases hi with rfl | rfl <;>
      simp [exec, execBldrslow, execBldrfast, sourceTable_of_none hs, bind_error, command_error hf]
  | some x => rcases hi with rfl | rfl <;>
      simp [exec, execBldrslow, execBldrfast, sourceTable_of_some hs, destinationFree_of_some hs, bind_ok,
        command_error hf]

theorem exec_cmptbl_same {s : State} {t : Slot} {x : Table} (hf : s.fault = false) (hs : s.slot t = some x) :
    exec (.cmptbl t t) s = .next s := by
  have hsame : firstDifference x x = none := firstDifference_eq_none.2 fun _ => rfl
  simp only [exec, execCmptbl, sourceTable_of_some hs, bind_ok, hsame]
  exact command_ok hf

theorem exec_croll_of_built {s : State} {tb tr : Slot} {x y : Table} (hf : s.fault = false) (ha : s.av = true)
    (hb : s.slot tb = some x) (hr : s.slot tr = some y) (bin bout : Byte) :
    exec (.croll tb tr bin bout) s = .next (s.setAcc (rollStep x y s.acc bin bout)) := by
  simp only [exec, execCroll, sourceTable_of_some hb, sourceTable_of_some hr, accumulator_of_valid ha, bind_ok]
  exact command_ok hf

/-- R131: with both slots built, `ROLLVFY` can fault only on its buffer or on a window. -/
theorem exec_rollvfy_cause {s u : State} {tb tr : Slot} {x y : Table} {addr n : Word} (hf : s.fault = false)
    (hb : s.slot tb = some x) (hr : s.slot tr = some y) (h : exec (.rollvfy tb tr addr n) s = .next u)
    (hu : u.fault = true) : u.cause = .range ∨ u.cause = .rollMismatch := by
  simp only [exec, execRollvfy, sourceTable_of_some hb, sourceTable_of_some hr, bind_ok] at h
  rcases bufferInside_cases s addr n (s.cfg.w + n.toNat) with ⟨-, eb⟩ | ⟨-, eb⟩
  · cases hv : verifyWindows s.cfg x y s.mem addr.toNat n.toNat 0 (fold s.cfg x s.mem addr.toNat s.cfg.w) with
    | ok p =>
      rw [eb, hv] at h
      cases (command_ok hf).symm.trans h
      simp [hf] at hu
    | error f =>
      rw [eb, hv] at h
      cases (command_error hf).symm.trans h
      exact .inr (verifyWindows_error hv)
  · rw [eb] at h
    cases (command_error hf).symm.trans h
    exact .inl rfl

/-- Settles O31, by the outcome of each command that names one slot twice. -/
theorem oneSlotNamedTwice : Obligations.OneSlotNamedTwice := by
  intro s t hf
  refine ⟨fun i hi => ⟨_, exec_rollingBuild_same hf hi, rfl, rfl⟩, fun x hs => ⟨exec_cmptbl_same hf hs, ?_, ?_⟩⟩
  · exact fun ha bin bout => exec_croll_of_built hf ha hs hs bin bout
  · exact fun addr n u h hu => exec_rollvfy_cause hf hs hs h hu

/-! ### The registers as the host reads them -/

/-- R37's table as a list: register `n` is its element `n`, and 0 beyond its end. -/
theorem readRegister_eq_getD (s : State) (n : Word) :
    readRegister s n = [s.status, s.cause.code.setWidth 32, s.finfo, s.fval0, s.fval1, s.acc, s.res0, s.res1,
      s.cfg.poly, BitVec.ofNat 32 s.cfg.w, s.cfg.init, BitVec.ofNat 32 s.cfg.memSize].getD n.toNat 0 := by
  unfold readRegister
  generalize n.toNat = k
  match k with
  | 0 | 1 | 2 | 3 | 4 | 5 | 6 | 7 | 8 | 9 | 10 | 11 => rfl
  | _ + 12 => rfl

theorem step_of_pending {s : State} {a : HostAction} {rest : List HostAction} (hc : s.cfg.legal = true)
    (hp : s.pending = a :: rest) : step s = hostAct a (s.setPending rest) := by
  simp [step, hostStep, hc, hp]

/-- Settles O15: a read only adds its answer to the list of replies. -/
theorem hostRegisterReads : Obligations.HostRegisterReads := by
  intro s rest hc
  refine ⟨fun n hp => ?_, fun hp => step_of_pending hc hp⟩
  rw [step_of_pending hc hp, ← readRegister_eq_getD]
  rfl

/-! ### `STATUS` -/

/-- R29: every bit of `STATUS`. -/
theorem State.status_getLsbD (s : State) (i : Nat) :
    s.status.getLsbD i = [s.fault, s.av, false, false, s.tv 0, s.tv 1, s.tv 2, s.tv 3].getD i false := by
  unfold State.status
  simp only [BitVec.getLsbD_append]
  match i with
  | 0 | 1 | 2 | 3 | 4 | 5 | 6 | 7 => simp
  | i + 8 => simp

/-- Settles O16, by the list of the bits of `STATUS` and a run of the rule's example. -/
theorem statusFields : Obligations.StatusFields := by
  refine ⟨fun s => ?_, by decide, State.reset.installTable 0 (referenceTable Cfg.hw.poly), _, rfl, rfl, ?_⟩
  · simp only [State.status_getLsbD]
    refine ⟨rfl, rfl, rfl, rfl, rfl, rfl, rfl, rfl, fun i hi => ?_⟩
    exact List.getD_eq_default _ _ hi
  · rfl

end Sys2Proof.Machine
end

section
/-! The host's access to `MEM` (spec/20_memory.md, R56). -/

namespace Sys2Proof.Machine

section HostAccess

variable {s : State} {a : Nat} {rest : List HostAction}

theorem step_writeMem_inside {v : Byte} (hc : s.cfg.legal = true) (hp : s.pending = .writeMem a v :: rest)
    (ha : a < s.cfg.memSize) : step s = .next ((s.setPending rest).writeMem a v) := by
  rw [step_of_pending hc hp]
  exact if_pos ha

theorem step_writeMem_outside {v : Byte} (hc : s.cfg.legal = true) (hp : s.pending = .writeMem a v :: rest)
    (ha : ¬ a < s.cfg.memSize) : step s = .refused .hostWriteOutsideMem := by
  rw [step_of_pending hc hp]
  exact if_neg ha

theorem step_readMem_inside (hc : s.cfg.legal = true) (hp : s.pending = .readMem a :: rest)
    (ha : a < s.cfg.memSize) : step s = .next ((s.setPending rest).reply (.byte (s.mem.read a))) := by
  rw [step_of_pending hc hp]
  exact if_pos ha

end HostAccess

/-- Settles O14: the outcome of each host access, the laws of `Memory.write` for the memory a write leaves, and the
frame of a command. -/
theorem hostMemoryAccess : Obligations.HostMemoryAccess := by
  refine ⟨fun s a v rest hc hwf hp ha => ?_, fun _ _ _ _ => step_writeMem_outside, fun _ _ _ => step_readMem_inside,
    fun _ _ _ => exec_mem_eq⟩
  exact ⟨s.mem.write a v, step_writeMem_inside hc hp ha, Memory.wf_write hwf a v,
    fun b => Memory.read_write hwf a b v⟩

end Sys2Proof.Machine
end

section
/-! Command packets (spec/30_encoding.md). `InRow op p` says what the checks of R77 say of a packet that the decoder
takes for a command of the row `op`; decoding, encoding, and the mask and match of R75 are each tied to it once. -/

namespace Sys2Proof

open Machine

/-! ### The fields of a command word -/

/-- A word is its six fields, most significant first (R71). -/
theorem append_fields (w : Word) :
    fieldOpcode w ++ fieldZero w ++ BitVec.ofFin (w := 2) (fieldT2 w) ++ BitVec.ofFin (w := 2) (fieldT1 w) ++
      fieldB2 w ++ fieldB1 w = w := by
  simp only [fieldOpcode, fieldZero, fieldT2, fieldT1, fieldB2, fieldB1, BitVec.ofFin_toFin,
    BitVec.extractLsb'_append_extractLsb'_eq_extractLsb']
  exact BitVec.extractLsb'_eq_self

/-- Two words with the same fields are the same word. -/
theorem word_eq_iff_fields_eq {w v : Word} :
    w = v ↔ fieldOpcode w = fieldOpcode v ∧ fieldZero w = fieldZero v ∧ fieldT2 w = fieldT2 v ∧
      fieldT1 w = fieldT1 v ∧ fieldB2 w = fieldB2 v ∧ fieldB1 w = fieldB1 v := by
  constructor
  · rintro rfl
    exact ⟨rfl, rfl, rfl, rfl, rfl, rfl⟩
  · rintro ⟨hop, hz, ht2, ht1, hb2, hb1⟩
    rw [← append_fields w, ← append_fields v, hop, hz, ht2, ht1, hb2, hb1]

section FieldAnd

variable (w v : Word)

theorem fieldOpcode_and : fieldOpcode (w &&& v) = fieldOpcode w &&& fieldOpcode v := BitVec.extractLsb'_and

theorem fieldZero_and : fieldZero (w &&& v) = fieldZero w &&& fieldZero v := BitVec.extractLsb'_and

theorem fieldT2_and : fieldT2 (w &&& v) = fieldT2 w &&& fieldT2 v := by
  rw [fieldT2, BitVec.extractLsb'_and, BitVec.toFin_and, fieldT2, fieldT2]

theorem fieldT1_and : fieldT1 (w &&& v) = fieldT1 w &&& fieldT1 v := by
  rw [fieldT1, BitVec.extractLsb'_and, BitVec.toFin_and, fieldT1, fieldT1]

theorem fieldB2_and : fieldB2 (w &&& v) = fieldB2 w &&& fieldB2 v := BitVec.extractLsb'_and

theorem fieldB1_and : fieldB1 (w &&& v) = fieldB1 w &&& fieldB1 v := BitVec.extractLsb'_and

end FieldAnd

/-! ### The rows of R75 -/

theorem Opcode.eq_of_code_eq {op op' : Opcode} (h : op.code = op'.code) : op = op' := by
  simpa [Opcode.ofCode_code] using congrArg Opcode.ofCode h

theorem Format.fieldsClear_iff {f : Format} {w : Word} :
    f.fieldsClear w = true ↔
      (f.usesT2 = false → fieldT2 w = 0) ∧ (f.usesT1 = false → fieldT1 w = 0) ∧
        (f.usesB2 = false → fieldB2 w = 0) ∧ (f.usesB1 = false → fieldB1 w = 0) := by
  simp only [Format.fieldsClear, Bool.and_eq_true, Bool.or_eq_true, decide_eq_true_eq, and_assoc,
    ← Bool.not_eq_true, ← or_iff_not_imp_left]

theorem Format.argsClear_iff {f : Format} {p : Packet} :
    f.argsClear p = true ↔ (f.usesArg0 = false → p.arg0 = 0) ∧ (f.usesArg1 = false → p.arg1 = 0) := by
  simp only [Format.argsClear, Bool.and_eq_true, Bool.or_eq_true, decide_eq_true_eq,
    ← Bool.not_eq_true, ← or_iff_not_imp_left]

/-- The match word of a row is its opcode over fields that are all zero. -/
theorem Opcode.matchWord_eq_layout (op : Opcode) : op.matchWord = layoutWord0 op 0 0 0 0 := by
  cases op <;> decide

/-- The mask of a row covers the opcode, the `zero` field, and every field its format does not use. -/
theorem Opcode.fields_maskWord (op : Opcode) :
    fieldOpcode op.maskWord = BitVec.allOnes 8 ∧ fieldZero op.maskWord = BitVec.allOnes 4 ∧
      fieldT2 op.maskWord = (if op.format.usesT2 then 0 else 3) ∧
      fieldT1 op.maskWord = (if op.format.usesT1 then 0 else 3) ∧
      fieldB2 op.maskWord = (if op.format.usesB2 then 0 else BitVec.allOnes 8) ∧
      fieldB1 op.maskWord = (if op.format.usesB1 then 0 else BitVec.allOnes 8) := by
  cases op <;> decide

theorem slot_and_mask_eq_zero_iff (t : Slot) (used : Bool) :
    t &&& (if used then 0 else 3) = 0 ↔ (used = false → t = 0) := by
  revert t used
  decide

theorem byte_and_mask_eq_zero_iff (b : Byte) (used : Bool) :
    b &&& (if used then 0 else BitVec.allOnes 8) = 0 ↔ (used = false → b = 0) := by
  cases used with
  | true => simp
  | false => simp only [Bool.false_eq_true, if_false, BitVec.and_allOnes, true_imp_iff]

/-- R75's selection of a row by the command word, as the checks of R77 on that word. -/
theorem and_maskWord_eq_matchWord_iff {op : Opcode} {w : Word} :
    w &&& op.maskWord = op.matchWord ↔
      fieldOpcode w = op.code ∧ fieldZero w = 0 ∧ op.format.fieldsClear w = true := by
  obtain ⟨hop, hz, ht2, ht1, hb2, hb1⟩ := op.fields_maskWord
  rw [word_eq_iff_fields_eq, op.matchWord_eq_layout, fieldOpcode_and, fieldZero_and, fieldT2_and, fieldT1_and,
    fieldB2_and, fieldB1_and, hop, hz, ht2, ht1, hb2, hb1, fieldOpcode_layout, fieldZero_layout, fieldT2_layout,
    fieldT1_layout, fieldB2_layout, fieldB1_layout, BitVec.and_allOnes, BitVec.and_allOnes,
    slot_and_mask_eq_zero_iff, slot_and_mask_eq_zero_iff, byte_and_mask_eq_zero_iff, byte_and_mask_eq_zero_iff,
    Format.fieldsClear_iff]

/-! ### The packets of a row -/

/-- R77: the packet is a legal packet of the row `op`. -/
def InRow (op : Opcode) (p : Packet) : Prop :=
  fieldOpcode p.word0 = op.code ∧ fieldZero p.word0 = 0 ∧ op.format.fieldsClear p.word0 = true ∧
    op.format.argsClear p = true

theorem inRow_iff_mask_match {op : Opcode} {p : Packet} :
    InRow op p ↔ p.word0 &&& op.maskWord = op.matchWord ∧ op.format.argsClear p = true := by
  rw [and_maskWord_eq_matchWord_iff, InRow, and_assoc, and_assoc]

theorem InRow.decode_eq {op : Opcode} {p : Packet} (h : InRow op p) : decode p = .ok (assemble op p) := by
  obtain ⟨hop, hz, hf, ha⟩ := h
  simp [decode, hop, Opcode.ofCode_code, hz, hf, ha]

/-- The decoder answers with a command exactly on the legal packets of a row. -/
theorem decode_eq_ok_iff {p : Packet} {i : Instr} :
    decode p = .ok i ↔ ∃ op, InRow op p ∧ i = assemble op p := by
  constructor
  · intro h
    obtain ⟨op, hop, hz, hf, ha, hi⟩ := decode_ok h
    exact ⟨op, ⟨(Opcode.code_of_ofCode hop).symm, hz, hf, ha⟩, hi⟩
  · rintro ⟨op, h, rfl⟩
    exact h.decode_eq

theorem decode_eq_error_iff {p : Packet} : (∃ e, decode p = .error e) ↔ ∀ op, ¬ InRow op p := by
  constructor
  · rintro ⟨e, he⟩ op h
    cases he.symm.trans h.decode_eq
  · intro h
    cases hd : decode p with
    | error e => exact ⟨e, rfl⟩
    | ok i =>
      obtain ⟨op, hrow, -⟩ := decode_eq_ok_iff.1 hd
      exact absurd hrow (h op)

theorem opcode_assemble (op : Opcode) (p : Packet) : (assemble op p).opcode = op := by
  cases op <;> rfl

/-- A command's packet lies in the command's own row. -/
theorem inRow_encode (i : Instr) : InRow i.opcode (encode i) := by
  rw [inRow_iff_mask_match]
  cases i with
  | nop => exact Laws.MatchesRow.nop
  | bldref td => exact Laws.MatchesRow.bldref td
  | blddbl td seed => exact Laws.MatchesRow.blddbl td seed
  | bldrslow td ts => exact Laws.MatchesRow.bldrslow td ts
  | bldrfast td ts => exact Laws.MatchesRow.bldrfast td ts
  | cinit => exact Laws.MatchesRow.cinit
  | cupd ts b => exact Laws.MatchesRow.cupd ts b
  | cfin => exact Laws.MatchesRow.cfin
  | csum ts addr len => exact Laws.MatchesRow.csum ts addr len
  | croll tb tr bin bout => exact Laws.MatchesRow.croll tb tr bin bout
  | cmptbl ta tb => exact Laws.MatchesRow.cmptbl ta tb
  | rollvfy tb tr addr n => exact Laws.MatchesRow.rollvfy tb tr addr n
  | rdtbl ts idx => exact Laws.MatchesRow.rdtbl ts idx

/-- R74: every operand is read back from the field it was laid in. -/
theorem assemble_encode (i : Instr) : assemble i.opcode (encode i) = i := by
  cases i <;>
    simp [Instr.opcode, assemble, encode, fieldT1_layout, fieldT2_layout, fieldB1_layout, fieldB2_layout]

/-- R74: a packet read by `assemble` and encoded again keeps what the row's format uses; the rest becomes zero. -/
theorem encode_assemble_eq (op : Opcode) (p : Packet) :
    encode (assemble op p) =
      ⟨layoutWord0 op (if op.format.usesT2 then fieldT2 p.word0 else 0)
          (if op.format.usesT1 then fieldT1 p.word0 else 0) (if op.format.usesB2 then fieldB2 p.word0 else 0)
          (if op.format.usesB1 then fieldB1 p.word0 else 0),
        if op.format.usesArg0 then p.arg0 else 0, if op.format.usesArg1 then p.arg1 else 0⟩ := by
  cases op <;> rfl

theorem ite_used_eq {α : Type} {used : Bool} {x z : α} (h : used = false → x = z) :
    (if used then x else z) = x :=
  ite_eq_left_iff.2 fun hu => (h (Bool.not_eq_true _ ▸ hu)).symm

/-- R77: what the format does not use is zero already, so encoding again gives the packet back. -/
theorem InRow.encode_assemble {op : Opcode} {p : Packet} (h : InRow op p) : encode (assemble op p) = p := by
  obtain ⟨hop, hz, hf, ha⟩ := h
  obtain ⟨ht2, ht1, hb2, hb1⟩ := Format.fieldsClear_iff.1 hf
  obtain ⟨ha0, ha1⟩ := Format.argsClear_iff.1 ha
  rw [encode_assemble_eq, ite_used_eq ht2, ite_used_eq ht1, ite_used_eq hb2, ite_used_eq hb1, ite_used_eq ha0,
    ite_used_eq ha1, layout_of_fields op p.word0 hop hz]

/-- Settles O1: the packet of a command lies in the command's row, and its fields hold the command's operands. -/
theorem decodeOfEncode : Obligations.DecodeOfEncode := fun i =>
  decode_eq_ok_iff.2 ⟨i.opcode, inRow_encode i, (assemble_encode i).symm⟩

/-- Settles O2: a legal packet of a row has nothing in it but the opcode and the operands. -/
theorem encodeOfDecode : Obligations.EncodeOfDecode := by
  intro p i h
  obtain ⟨op, hrow, rfl⟩ := decode_eq_ok_iff.1 h
  exact hrow.encode_assemble

/-- Settles O3: mask and match select the words whose unused fields are zero. -/
theorem decodeSelectsTableRow : Obligations.DecodeSelectsTableRow := by
  intro p op
  rw [← Format.argsClear_iff, ← inRow_iff_mask_match]
  constructor
  · rintro ⟨i, hd, rfl⟩
    obtain ⟨op, hrow, rfl⟩ := decode_eq_ok_iff.1 hd
    rwa [opcode_assemble]
  · exact fun h => ⟨_, h.decode_eq, opcode_assemble op p⟩

/-- Settles O4: a packet is rejected when it is in no row, and the opcode leaves one row to be in. -/
theorem illegalPackets : Obligations.IllegalPackets := by
  intro p
  rw [decode_eq_error_iff]
  constructor
  · intro h
    by_cases hop : ∃ op : Opcode, fieldOpcode p.word0 = op.code
    · obtain ⟨op, hop⟩ := hop
      refine or_iff_not_imp_left.2 fun _ => or_iff_not_imp_left.2 fun hz => ⟨op, hop, ?_⟩
      by_contra hclear
      simp only [not_or, not_and, not_not] at hz hclear
      obtain ⟨ht1, ht2, hb1, hb2, ha0, ha1⟩ := hclear
      exact h op ⟨hop, hz, Format.fieldsClear_iff.2 ⟨ht2, ht1, hb2, hb1⟩, Format.argsClear_iff.2 ⟨ha0, ha1⟩⟩
    · exact .inl fun op he => hop ⟨op, he⟩
  · rintro h op ⟨hop, hz, hf, ha⟩
    obtain ⟨ht2, ht1, hb2, hb1⟩ := Format.fieldsClear_iff.1 hf
    obtain ⟨ha0, ha1⟩ := Format.argsClear_iff.1 ha
    rcases h with hun | hnz | ⟨op', hop', hset⟩
    · exact hun op hop
    · exact hnz hz
    · obtain rfl := Opcode.eq_of_code_eq (hop.symm.trans hop')
      rcases hset with ⟨hu, hne⟩ | ⟨hu, hne⟩ | ⟨hu, hne⟩ | ⟨hu, hne⟩ | ⟨hu, hne⟩ | ⟨hu, hne⟩
      · exact hne (ht1 hu)
      · exact hne (ht2 hu)
      · exact hne (hb1 hu)
      · exact hne (hb2 hu)
      · exact hne (ha0 hu)
      · exact hne (ha1 hu)

/-! ### The layout as arithmetic -/

/-- A field of a word, widened, is the word shifted down and masked. -/
theorem setWidth_extractLsb' (w : Word) (start len : Nat) (h : len ≤ 32) :
    (w.extractLsb' start len).setWidth 32 = (w >>> start) &&& BitVec.ofNat 32 (2 ^ len - 1) := by
  have hlen : 2 ^ len ≤ 2 ^ 32 := Nat.pow_le_pow_right (by decide) h
  have hmask : (2 ^ len - 1) % 2 ^ 32 = 2 ^ len - 1 := Nat.mod_eq_of_lt (by have := Nat.two_pow_pos len; omega)
  apply BitVec.eq_of_toNat_eq
  rw [BitVec.toNat_setWidth, BitVec.extractLsb'_toNat, BitVec.toNat_and, BitVec.toNat_ushiftRight,
    BitVec.toNat_ofNat, hmask, Nat.and_two_pow_sub_one_eq_mod]
  exact Nat.mod_eq_of_lt (lt_of_lt_of_le (Nat.mod_lt _ (Nat.two_pow_pos len)) hlen)

/-- A value of `n` bits moved up by `k` bits that leave room for it loses none of them. -/
theorem toNat_setWidth_shiftLeft {n : Nat} (v : BitVec n) (k : Nat) (h : n + k ≤ 32) :
    (v.setWidth 32 <<< k).toNat = v.toNat <<< k := by
  have hv : v.toNat <<< k < 2 ^ 32 := by
    rw [Nat.shiftLeft_eq]
    calc v.toNat * 2 ^ k < 2 ^ n * 2 ^ k := Nat.mul_lt_mul_of_pos_right v.isLt (Nat.two_pow_pos k)
      _ = 2 ^ (n + k) := (pow_add 2 n k).symm
      _ ≤ 2 ^ 32 := Nat.pow_le_pow_right (by decide) h
  rw [BitVec.toNat_shiftLeft, BitVec.toNat_setWidth_of_le (by omega), Nat.mod_eq_of_lt hv]

/-- R71: the formula of the command word. -/
theorem layoutWord0_eq_or (op : Opcode) (t2 t1 : Slot) (b2 b1 : Byte) :
    layoutWord0 op t2 t1 b2 b1 =
      op.code.zext <<< 24 ||| slotWord t2 <<< 18 ||| slotWord t1 <<< 16 ||| b2.zext <<< 8 ||| b1.zext := by
  apply BitVec.eq_of_toNat_eq
  simp only [layoutWord0, slotWord, Byte.zext, BitVec.toNat_append, BitVec.toNat_or,
    toNat_setWidth_shiftLeft _ _ (by decide : 8 + 24 ≤ 32), toNat_setWidth_shiftLeft _ _ (by decide : 2 + 18 ≤ 32),
    toNat_setWidth_shiftLeft _ _ (by decide : 2 + 16 ≤ 32), toNat_setWidth_shiftLeft _ _ (by decide : 8 + 8 ≤ 32),
    BitVec.toNat_setWidth_of_le (by decide : 8 ≤ 32), Nat.shiftLeft_or_distrib, ← Nat.shiftLeft_add,
    BitVec.toNat_zero, Nat.or_zero]

/-- Settles O6: fields laid side by side are fields moved to their places, and a field read is a shift and a mask. -/
theorem commandWordLayout : Obligations.CommandWordLayout := by
  refine ⟨layoutWord0_eq_or, fun w => ⟨?_, setWidth_extractLsb' w 20 4 (by decide),
    setWidth_extractLsb' w 18 2 (by decide), setWidth_extractLsb' w 16 2 (by decide),
    setWidth_extractLsb' w 8 8 (by decide), ?_⟩⟩
  · apply BitVec.eq_of_toNat_eq
    have hw : w.toNat >>> 24 < 2 ^ 8 := by rw [Nat.shiftRight_eq_div_pow]; have := w.isLt; omega
    rw [fieldOpcode, BitVec.toNat_setWidth_of_le (by decide), BitVec.extractLsb'_toNat, Nat.mod_eq_of_lt hw,
      BitVec.toNat_ushiftRight]
  · have h := setWidth_extractLsb' w 0 8 (by decide)
    rwa [BitVec.ushiftRight_zero] at h

/-! ### The worked packets -/

/-- Settles O5: the legal packets are the encodings of their commands, and the decoder rejects the other four. -/
theorem workedEncodings : Obligations.WorkedEncodings :=
  ⟨decodeOfEncode .nop, decodeOfEncode (.bldref 0), decodeOfEncode (.blddbl 1 0xEDB88320),
    decodeOfEncode (.bldrslow 2 0), decodeOfEncode (.bldrfast 3 2), decodeOfEncode .cinit,
    decodeOfEncode (.cupd 0 0x31), decodeOfEncode .cfin, decodeOfEncode (.csum 0 0x100 9),
    decodeOfEncode (.croll 0 2 0x2C 0x0B), decodeOfEncode (.cmptbl 2 3), decodeOfEncode (.rollvfy 0 2 0 200),
    decodeOfEncode (.rdtbl 0 1), rfl, rfl, rfl, rfl⟩

/-- Settles O7: `BLDDBL` has the opcode 2 and lays `td` in `t1`. -/
theorem bldfastExpansion : Obligations.BldfastExpansion := by
  refine ⟨fun _ _ => rfl, fun td => ?_⟩
  have hw : layoutWord0 .blddbl 0 td 0 0 = 0x02000000 ||| slotWord td <<< 16 := by
    simp [layoutWord0_eq_or, Opcode.code, slotWord]
  rw [bldfast, encode, hw, Cfg.hw]

/-! ### Completion of every command -/

/-- Settles O24: each meaning is a `command`, which answers a next state whatever its checks found. -/
theorem everyCommandTerminates : Obligations.EveryCommandTerminates := by
  intro i s
  cases i with
  | nop => exact command_next s (.ok s)
  | cinit => exact command_next s (.ok (s.startAcc s.cfg.init))
  | _ => exact command_next s _

end Sys2Proof
end

section
/-! The base table builders (spec/41_base_table_builders.md): the bit-round, the entries of the reference table, and the
entries of the doubling table, whose second loop (R102) is named `fillRows`. -/

namespace Sys2Proof.Machine

/-! ### The bit-round -/

theorem bitRound_of_odd {r : Word} (h : r.getLsbD 0 = true) (poly : Word) : bitRound poly r = (r >>> 1) ^^^ poly :=
  if_pos h

theorem bitRound_of_even {r : Word} (h : r.getLsbD 0 = false) (poly : Word) : bitRound poly r = r >>> 1 :=
  if_neg (by rw [h]; exact Bool.false_ne_true)

@[simp] theorem bitRound_zero (poly : Word) : bitRound poly 0 = 0 := rfl

theorem bitRound_one (poly : Word) : bitRound poly 1 = poly := by
  rw [bitRound_of_odd (by decide)]
  exact BitVec.zero_xor

/-- R100: the low bit of a sum is the sum of the low bits, so the polynomial enters once, twice or not at all on both
sides. -/
theorem bitRound_xor (poly a b : Word) : bitRound poly (a ^^^ b) = bitRound poly a ^^^ bitRound poly b := by
  have hlow : (a ^^^ b).getLsbD 0 = (a.getLsbD 0 ^^ b.getLsbD 0) := BitVec.getLsbD_xor
  cases ha : a.getLsbD 0 <;> cases hb : b.getLsbD 0 <;> rw [ha, hb] at hlow
  case false.false =>
    rw [bitRound_of_even hlow, bitRound_of_even ha, bitRound_of_even hb, BitVec.ushiftRight_xor_distrib]
  case false.true =>
    rw [bitRound_of_odd hlow, bitRound_of_even ha, bitRound_of_odd hb, BitVec.ushiftRight_xor_distrib,
      BitVec.xor_assoc]
  case true.false =>
    rw [bitRound_of_odd hlow, bitRound_of_odd ha, bitRound_of_even hb, BitVec.ushiftRight_xor_distrib]
    ac_rfl
  case true.true =>
    have hcancel : ((a >>> 1) ^^^ poly) ^^^ ((b >>> 1) ^^^ poly) = (a >>> 1) ^^^ (b >>> 1) ^^^ (poly ^^^ poly) := by
      ac_rfl
    rw [bitRound_of_even hlow, bitRound_of_odd ha, bitRound_of_odd hb, BitVec.ushiftRight_xor_distrib, hcancel,
      BitVec.xor_self, BitVec.xor_zero]

/-- Settles O48: linearity by the low bits of the two words, and the rule's examples by evaluation. -/
theorem bitRoundIsLinear : Obligations.BitRoundIsLinear :=
  ⟨fun _ _ => rfl, bitRound_xor, bitRound_zero, rfl, rfl, rfl, rfl, rfl, rfl⟩

@[simp] theorem bitRounds_of_zero (poly : Word) (n : Nat) : bitRounds poly n 0 = 0 := by
  induction n with
  | zero => rfl
  | succ n ih => rw [bitRounds_succ, bitRound_zero, ih]

/-- A single set bit moves down one place a bit-round; the polynomial enters when it leaves at bit 0. -/
theorem bitRounds_twoPow (poly : Word) {n : Nat} (hn : n < 32) :
    bitRounds poly (n + 1) (BitVec.twoPow 32 n) = poly := by
  induction n with
  | zero => exact bitRound_one poly
  | succ n ih =>
    have heven : (BitVec.twoPow 32 (n + 1)).getLsbD 0 = false := by
      rw [BitVec.getLsbD_twoPow, decide_eq_false (by omega : n + 1 ≠ 0), Bool.and_false]
    have hshift : BitVec.twoPow 32 (n + 1) >>> 1 = BitVec.twoPow 32 n := by
      apply BitVec.eq_of_toNat_eq
      rw [BitVec.toNat_ushiftRight, BitVec.toNat_twoPow_of_lt hn, BitVec.toNat_twoPow_of_lt (by omega),
        Nat.shiftRight_eq_div_pow, pow_succ, pow_one, Nat.mul_div_cancel _ (by decide)]
    rw [bitRounds_succ, bitRound_of_even heven, hshift, ih (by omega)]

/-! ### `BLDREF` -/

theorem exec_bldref_of_free {s : State} {td : Slot} (hf : s.fault = false) (hs : s.slot td = none) :
    exec (.bldref td) s = .next (s.installTable td (referenceTable s.cfg.poly)) := by
  change command s (destinationFree s td >>= fun _ => .ok (s.installTable td _)) = _
  rw [destinationFree_of_none hs, bind_ok, command_ok hf]

theorem referenceTable_entry_zero (poly : Word) : (referenceTable poly).entry 0 = 0 := by
  rw [referenceTable_entry]
  exact bitRounds_of_zero poly 8

theorem referenceTable_entry_128 (poly : Word) : (referenceTable poly).entry 128 = poly := by
  rw [referenceTable_entry]
  exact bitRounds_twoPow poly (by decide : 7 < 32)

/-- Settles O33: the command installs the reference table; `0` stays `0` under bit-rounds, and bit 7 of the index 128
leaves in the eighth. -/
theorem bldrefBuildsReferenceTable : Obligations.BldrefBuildsReferenceTable := fun s _ hf hs =>
  ⟨referenceTable s.cfg.poly, exec_bldref_of_free hf hs, referenceTable_entry _, referenceTable_entry_zero _,
    referenceTable_entry_128 _⟩

/-! ### R102, first loop -/

theorem doublingAnchors_cons (poly : Word) (i : Byte) (is : List Byte) (t : Table) (r : Word) :
    doublingAnchors poly (i :: is) t r = doublingAnchors poly is (t.put i r) (bitRound poly r) := rfl

theorem doublingAnchors_entry_of_not_mem {poly : Word} {n : Byte} {is : List Byte} (hn : n ∉ is) (t : Table)
    (r : Word) : (doublingAnchors poly is t r).entry n = t.entry n := by
  induction is generalizing t r with
  | nil => rfl
  | cons i rest ih =>
    rw [List.mem_cons, not_or] at hn
    rw [doublingAnchors_cons, ih hn.2, Table.entry_put, if_neg hn.1]

/-- The index at place `m` of the list gets the seed after `m` bit-rounds. -/
theorem doublingAnchors_entry_of_getElem? {poly : Word} {n : Byte} {is : List Byte} (hd : is.Nodup) {m : Nat}
    (hm : is[m]? = some n) (t : Table) (r : Word) :
    (doublingAnchors poly is t r).entry n = bitRounds poly m r := by
  induction is generalizing t r m with
  | nil => cases hm
  | cons i rest ih =>
    obtain ⟨hi, hrest⟩ := List.nodup_cons.mp hd
    rw [doublingAnchors_cons]
    cases m with
    | zero =>
      obtain rfl : i = n := Option.some.inj hm
      rw [doublingAnchors_entry_of_not_mem hi, Table.entry_put, if_pos rfl, bitRounds_zero]
    | succ m => exact ih hrest hm _ _

/-! ### R102, second loop -/

/-- The rows of the second loop at the indices `is`, in order. -/
def fillRows (is : List Byte) (t : Table) : Table :=
  is.foldl (fun t i => doublingRow i (bytesBelow i) t) t

theorem fillRows_cons (i : Byte) (is : List Byte) (t : Table) :
    fillRows (i :: is) t = fillRows is (doublingRow i (bytesBelow i) t) := rfl

theorem fillRows_append (pre post : List Byte) (t : Table) :
    fillRows (pre ++ post) t = fillRows post (fillRows pre t) := List.foldl_append

/-- An index strictly between `i` and `2 * i` for no row `i` is not written. -/
theorem fillRows_entry_of_outside {is : List Byte} {n : Byte}
    (hn : ∀ i ∈ is, i.toNat ≤ 128 ∧ ¬ (i.toNat < n.toNat ∧ n.toNat < 2 * i.toNat)) (t : Table) :
    (fillRows is t).entry n = t.entry n := by
  induction is generalizing t with
  | nil => rfl
  | cons i rest ih =>
    obtain ⟨hi, hout⟩ := hn i List.mem_cons_self
    rw [fillRows_cons, ih fun k hk => hn k (List.mem_cons_of_mem _ hk), doublingRow_bytesBelow hi, if_neg hout]

/-- When each row index is at least twice the one before, the row of `i` finds the entries it reads in their final
form, and no later row overwrites what it writes: in the finished table its sums hold. -/
theorem fillRows_entry_of_between {is : List Byte} (hle : ∀ i ∈ is, i.toNat ≤ 128)
    (hsep : is.Pairwise fun a b => 2 * a.toNat ≤ b.toNat) {i n : Byte} (hi : i ∈ is) (hlow : i.toNat < n.toNat)
    (hhigh : n.toNat < 2 * i.toNat) (t : Table) :
    (fillRows is t).entry n = (fillRows is t).entry i ^^^ (fillRows is t).entry (n - i) := by
  obtain ⟨pre, post, rfl⟩ := List.append_of_mem hi
  obtain ⟨-, hsep, -⟩ := List.pairwise_append.mp hsep
  have hpost : ∀ m : Byte, m.toNat < 2 * i.toNat →
      ∀ k ∈ post, k.toNat ≤ 128 ∧ ¬ (k.toNat < m.toNat ∧ m.toNat < 2 * k.toNat) := by
    intro m hm k hk
    have hik : 2 * i.toNat ≤ k.toNat := List.rel_of_pairwise_cons hsep hk
    exact ⟨hle k (List.mem_append_right pre (List.mem_cons_of_mem i hk)), by omega⟩
  have hkept : ∀ m : Byte, m.toNat ≤ i.toNat →
      (fillRows (pre ++ i :: post) t).entry m = (fillRows pre t).entry m := by
    intro m hm
    rw [fillRows_append, fillRows_entry_of_outside]
    exact List.forall_mem_cons.2 ⟨⟨hle i hi, by omega⟩, hpost m (by omega)⟩
  have hsub : (n - i).toNat = n.toNat - i.toNat := BitVec.toNat_sub_of_le (BitVec.le_def.mpr hlow.le)
  rw [hkept i le_rfl, hkept (n - i) (by omega), fillRows_append, fillRows_cons,
    fillRows_entry_of_outside (hpost n hhigh), doublingRow_bytesBelow (hle i hi), if_pos ⟨hlow, hhigh⟩]

/-! ### The doubling table -/

/-- R102: the indices of the first loop, in its order. -/
def anchorIndices : List Byte := [128, 64, 32, 16, 8, 4, 2, 1]

/-- R102: the indices of the second loop, in its order: the powers of two from `2` to `128`. -/
def rowIndices : List Byte := (List.range 7).map fun a => BitVec.ofNat 8 (2 ^ (a + 1))

theorem doubling_eq_fillRows (poly seed : Word) :
    doubling poly seed = fillRows rowIndices (doublingAnchors poly anchorIndices (Table.zero.put 0 0) seed) := rfl

theorem toNat_twoPow {k : Nat} (hk : k < 8) : (BitVec.ofNat 8 (2 ^ k)).toNat = 2 ^ k :=
  Nat.mod_eq_of_lt (Nat.pow_lt_pow_right (by decide) hk)

theorem mem_rowIndices {i : Byte} : i ∈ rowIndices ↔ ∃ a < 7, BitVec.ofNat 8 (2 ^ (a + 1)) = i :=
  List.mem_map.trans (exists_congr fun _ => and_congr_left' List.mem_range)

theorem rowIndices_le {i : Byte} (hi : i ∈ rowIndices) : i.toNat ≤ 128 := by
  obtain ⟨a, ha, rfl⟩ := mem_rowIndices.1 hi
  rw [toNat_twoPow (by omega)]
  exact Nat.pow_le_pow_right (by decide) (by omega : a + 1 ≤ 7)

theorem rowIndices_separated : rowIndices.Pairwise fun i k => 2 * i.toNat ≤ k.toNat := by
  refine List.pairwise_map.2 (List.pairwise_lt_range.imp_of_mem fun {a b} ha hb hab => ?_)
  rw [List.mem_range] at ha hb
  rw [toNat_twoPow (by omega), toNat_twoPow (by omega), ← Nat.pow_succ']
  exact Nat.pow_le_pow_right (by decide) (by omega)

/-- A power of two lies strictly between no row index and its double. -/
theorem twoPow_outside_row {i : Byte} (hi : i ∈ rowIndices) {k : Nat} (hk : k < 8) :
    ¬ (i.toNat < (BitVec.ofNat 8 (2 ^ k)).toNat ∧ (BitVec.ofNat 8 (2 ^ k)).toNat < 2 * i.toNat) := by
  obtain ⟨a, ha, rfl⟩ := mem_rowIndices.1 hi
  rw [toNat_twoPow hk, toNat_twoPow (by omega), ← Nat.pow_succ', Nat.pow_lt_pow_iff_right (by decide),
    Nat.pow_lt_pow_iff_right (by decide)]
  omega

theorem anchorIndices_getElem? : ∀ k < 8, anchorIndices[7 - k]? = some (BitVec.ofNat 8 (2 ^ k)) := by decide

theorem doubling_entry_zero (poly seed : Word) : (doubling poly seed).entry 0 = 0 := by
  rw [doubling_eq_fillRows,
    fillRows_entry_of_outside fun i hi => ⟨rowIndices_le hi, fun h => Nat.not_lt_zero _ h.1⟩,
    doublingAnchors_entry_of_not_mem (by decide), Table.entry_put, if_pos rfl]

theorem doubling_entry_twoPow (poly seed : Word) {k : Nat} (hk : k < 8) :
    (doubling poly seed).entry (BitVec.ofNat 8 (2 ^ k)) = bitRounds poly (7 - k) seed := by
  rw [doubling_eq_fillRows,
    fillRows_entry_of_outside fun i hi => ⟨rowIndices_le hi, twoPow_outside_row hi hk⟩,
    doublingAnchors_entry_of_getElem? (by decide) (anchorIndices_getElem? k hk)]

/-- R151: the doubling invariant of the table `doubling` builds. -/
theorem doubling_entry_add (poly seed : Word) {k j : Nat} (hk : k < 8) (hj : j < 2 ^ k) :
    (doubling poly seed).entry (BitVec.ofNat 8 (2 ^ k + j)) =
      (doubling poly seed).entry (BitVec.ofNat 8 (2 ^ k)) ^^^ (doubling poly seed).entry (BitVec.ofNat 8 j) := by
  rcases Nat.eq_zero_or_pos j with rfl | hpos
  · rw [Nat.add_zero, show BitVec.ofNat 8 0 = 0 from rfl, doubling_entry_zero]
    exact BitVec.xor_zero.symm
  have hk0 : k ≠ 0 := by rintro rfl; omega
  have hmem : BitVec.ofNat 8 (2 ^ k) ∈ rowIndices :=
    mem_rowIndices.2 ⟨k - 1, by omega, by rw [Nat.sub_add_cancel (by omega)]⟩
  have hpow : 2 ^ k ≤ 128 := Nat.pow_le_pow_right (by decide) (by omega : k ≤ 7)
  have hi := toNat_twoPow hk
  have hn : (BitVec.ofNat 8 (2 ^ k + j)).toNat = 2 ^ k + j := Nat.mod_eq_of_lt (by omega)
  have hsub : BitVec.ofNat 8 (2 ^ k + j) - BitVec.ofNat 8 (2 ^ k) = BitVec.ofNat 8 j := by
    rw [BitVec.ofNat_add, add_sub_cancel_left]
  have hsum := fillRows_entry_of_between (fun _ => rowIndices_le) rowIndices_separated hmem
    (n := BitVec.ofNat 8 (2 ^ k + j)) (by omega) (by omega)
  rw [doubling_eq_fillRows, hsum, hsub]

/-! ### `BLDDBL` -/

theorem exec_blddbl_of_free {s : State} {td : Slot} (seed : Word) (hf : s.fault = false) (hs : s.slot td = none) :
    exec (.blddbl td seed) s = .next (s.installTable td (doubling s.cfg.poly seed)) := by
  change command s (destinationFree s td >>= fun _ => .ok (s.installTable td _)) = _
  rw [destinationFree_of_none hs, bind_ok, command_ok hf]

/-- Settles O34: the command installs the doubling table, whose three kinds of entries the two loops fix. -/
theorem blddblBuildsDoublingTable : Obligations.BlddblBuildsDoublingTable := fun s _ seed hf hs =>
  ⟨doubling s.cfg.poly seed, exec_blddbl_of_free seed hf hs, doubling_entry_zero _ _,
    fun _ => doubling_entry_twoPow _ _, fun _ _ => doubling_entry_add _ _⟩

end Sys2Proof.Machine
end

section
/-! The checksum engine (spec/42_checksum_engine.md): its four commands, and the linearity of the byte-step. -/

namespace Sys2Proof.Machine

/-! ### The commands -/

theorem exec_cinit_of_unfaulted {s : State} (hf : s.fault = false) :
    exec .cinit s = .next (s.startAcc s.cfg.init) :=
  command_ok hf

/-- Settles O37: the command has no check, and `State.startAcc` is its update. -/
theorem cinitStartsChecksum : Obligations.CinitStartsChecksum := fun _ hf => exec_cinit_of_unfaulted hf

theorem exec_cfin_of_valid {s : State} (hf : s.fault = false) (ha : s.av = true) :
    exec .cfin s = .next (s.setRes0 (finish s.cfg s.acc)) := by
  simp only [exec, execCfin, accumulator_of_valid ha, bind_ok]
  exact command_ok hf

/-- Settles O39: with `AV = 1` the check passes and only `RES0` is written. -/
theorem cfinFinishesIntoRes0 : Obligations.CfinFinishesIntoRes0 := fun _ hf ha => exec_cfin_of_valid hf ha

theorem exec_cupd_of_built {s : State} {ts : Slot} {x : Table} (hf : s.fault = false) (hs : s.slot ts = some x)
    (ha : s.av = true) (b : Byte) : exec (.cupd ts b) s = .next (s.setAcc (update x s.acc b)) := by
  simp only [exec, execCupd, sourceTable_of_some hs, accumulator_of_valid ha, bind_ok]
  exact command_ok hf

/-- R110: the low byte of the sum is the sum of the state's low byte and the byte. -/
theorem update_eq_entry_lowByte (x : Table) (s : Word) (b : Byte) :
    update x s b = x.entry (s.setWidth 8 ^^^ b) ^^^ (s >>> 8) := by
  rw [update, BitVec.setWidth_xor, BitVec.setWidth_setWidth_of_le b (by decide), BitVec.setWidth_eq]

/-- Settles O38: both checks pass, and the byte-step indexes the table by the low byte. -/
theorem cupdFoldsOneByte : Obligations.CupdFoldsOneByte := by
  intro s ts b x hf hs ha
  rw [exec_cupd_of_built hf hs ha, update_eq_entry_lowByte]
  rfl

theorem exec_csum_of_built {s : State} {ts : Slot} {x : Table} {addr len : Word} (hf : s.fault = false)
    (hs : s.slot ts = some x) (hb : addr.toNat + len.toNat ≤ s.cfg.memSize) :
    exec (.csum ts addr len) s =
      .next ((s.startAcc (fold s.cfg x s.mem addr.toNat len.toNat)).setRes0
        (checksum s.cfg x s.mem addr.toNat len.toNat)) := by
  simp only [exec, execCsum, sourceTable_of_some hs, bufferInside_of_le hb, bind_ok]
  exact command_ok hf

/-- R50: the bytes of a buffer, each given by its offset. -/
theorem Memory.bytes_eq_ofFn (m : Memory) (addr n : Nat) :
    m.bytes addr n = List.ofFn fun k : Fin n => m.read (addr + k) :=
  List.ext_getElem (by simp) fun k _ _ => by simp [Memory.bytes]

/-- Settles O40: both checks pass, and R112's loop runs over the bytes by offset. -/
theorem csumChecksumsBuffer : Obligations.CsumChecksumsBuffer := by
  intro s ts addr len x hf hs hb
  rw [exec_csum_of_built hf hs hb, ← Memory.bytes_eq_ofFn]
  rfl

/-- Settles O41: the fold over one byte more is one byte-step more, and that is what `CUPD` takes. -/
theorem csumExtendsByCupd : Obligations.CsumExtendsByCupd := by
  intro s ts addr len x hf hs hne hb
  have hlen : (len + 1).toNat = len.toNat + 1 := by bv_omega
  refine ⟨_, _, _, exec_csum_of_built hf hs (by omega),
    exec_cupd_of_built (s := (s.startAcc _).setRes0 _) hf hs rfl _, exec_csum_of_built hf hs (by omega), ?_, rfl⟩
  simp only [State.setAcc_acc, State.setRes0_acc, State.startAcc_acc, hlen, fold_succ]

/-! ### The linearity of the byte-step -/

theorem Table.Linear.entry_xor {x : Table} (hx : x.Linear) (a b : Byte) :
    x.entry (a ^^^ b) = x.entry a ^^^ x.entry b :=
  hx a b

/-- R118: the index and the shifted state are linear, and so is the table in its index. -/
theorem Table.Linear.update_xor {x : Table} (hx : x.Linear) (s1 s2 : Word) (b1 b2 : Byte) :
    update x (s1 ^^^ s2) (b1 ^^^ b2) = update x s1 b1 ^^^ update x s2 b2 := by
  have hindex : (s1 ^^^ s2).setWidth 8 ^^^ (b1 ^^^ b2) = (s1.setWidth 8 ^^^ b1) ^^^ (s2.setWidth 8 ^^^ b2) := by
    rw [BitVec.setWidth_xor]
    ac_rfl
  simp only [update_eq_entry_lowByte, hindex, hx.entry_xor, BitVec.ushiftRight_xor_distrib]
  ac_rfl

theorem Table.Linear.update_xor_zero {x : Table} (hx : x.Linear) (s1 s2 : Word) :
    update x (s1 ^^^ s2) 0 = update x s1 0 ^^^ update x s2 0 :=
  hx.update_xor s1 s2 0 0

/-- The byte-step from the state 0 looks up the byte. -/
theorem update_of_zero (x : Table) (b : Byte) : update x 0 b = x.entry b := by
  simp [update_eq_entry_lowByte]

/-- R118: a byte-step is the zero-byte step and the byte's own entry. -/
theorem Table.Linear.update_eq_zeroByte_xor_entry {x : Table} (hx : x.Linear) (s : Word) (b : Byte) :
    update x s b = update x s 0 ^^^ x.entry b := by
  calc update x s b = update x (s ^^^ 0) (0 ^^^ b) := by simp
    _ = update x s 0 ^^^ update x 0 b := hx.update_xor s 0 0 b
    _ = update x s 0 ^^^ x.entry b := by rw [update_of_zero]

theorem bitRounds_xor (poly : Word) (n : Nat) (a b : Word) :
    bitRounds poly n (a ^^^ b) = bitRounds poly n a ^^^ bitRounds poly n b := by
  induction n generalizing a b with
  | zero => rfl
  | succ n ih => simp only [bitRounds_succ, bitRound_xor, ih]

/-- Bit-rounds that only meet clear bits only shift. -/
theorem bitRounds_of_low_clear (poly : Word) {n : Nat} {r : Word} (h : ∀ i < n, r.getLsbD i = false) :
    bitRounds poly n r = r >>> n := by
  induction n generalizing r with
  | zero => exact (BitVec.ushiftRight_zero r).symm
  | succ n ih =>
    have hrest : ∀ i < n, (r >>> 1).getLsbD i = false := fun i hi => by
      rw [BitVec.getLsbD_ushiftRight]
      exact h (1 + i) (by omega)
    rw [bitRounds_succ, bitRound_of_even (h 0 (by omega)), ih hrest, ← BitVec.shiftRight_add, Nat.add_comm]

theorem zext_ushiftRight_eight (b : Byte) : b.zext >>> 8 = 0 :=
  BitVec.eq_of_getLsbD_eq fun i _ => by simp

/-- A state without its low byte has eight clear low bits. -/
theorem getLsbD_xor_lowByte (s : Word) {i : Nat} (hi : i < 8) :
    (Byte.zext (s.setWidth 8) ^^^ s).getLsbD i = false := by
  simp [hi, show i < 32 by omega]

/-- R118: eight bit-rounds act on the low byte alone; the rest of the state they only shift. -/
theorem bitRounds_eight_eq_lowByte_xor_shift (poly s : Word) :
    bitRounds poly 8 s = bitRounds poly 8 (Byte.zext (s.setWidth 8)) ^^^ (s >>> 8) := by
  have hsplit : s = Byte.zext (s.setWidth 8) ^^^ (Byte.zext (s.setWidth 8) ^^^ s) := by
    rw [← BitVec.xor_assoc, BitVec.xor_self, BitVec.zero_xor]
  have hrest : bitRounds poly 8 (Byte.zext (s.setWidth 8) ^^^ s) = s >>> 8 := by
    rw [bitRounds_of_low_clear poly fun _ => getLsbD_xor_lowByte s, BitVec.ushiftRight_xor_distrib,
      zext_ushiftRight_eight]
    exact BitVec.zero_xor
  calc bitRounds poly 8 s
      = bitRounds poly 8 (Byte.zext (s.setWidth 8) ^^^ (Byte.zext (s.setWidth 8) ^^^ s)) := by rw [← hsplit]
    _ = bitRounds poly 8 (Byte.zext (s.setWidth 8)) ^^^ (s >>> 8) := by rw [bitRounds_xor, hrest]

/-- R118: over the reference table the zero-byte step is eight bit-rounds. -/
theorem update_referenceTable_zero (poly s : Word) : update (referenceTable poly) s 0 = bitRounds poly 8 s := by
  have hindex : s.setWidth 8 ^^^ (0 : Byte) = s.setWidth 8 := BitVec.xor_zero
  rw [update_eq_entry_lowByte, hindex, referenceTable_entry, ← bitRounds_eight_eq_lowByte_xor_shift]

/-- R154: nine bit-rounds, the first or the last of them split off. -/
theorem update_referenceTable_bitRound (poly s : Word) :
    update (referenceTable poly) (bitRound poly s) 0 = bitRound poly (update (referenceTable poly) s 0) := by
  rw [update_referenceTable_zero, update_referenceTable_zero, ← bitRounds_succ, bitRounds_succ']

/-- Settles O49: linearity from R110's shape of the byte-step; over the reference table, from the bit-round. -/
theorem engineIsLinear : Obligations.EngineIsLinear :=
  ⟨fun _ hx => ⟨hx.update_xor, hx.update_xor_zero, hx.update_eq_zeroByte_xor_entry⟩,
    fun poly s => ⟨update_referenceTable_zero poly s, update_referenceTable_bitRound poly s⟩⟩

end Sys2Proof.Machine
end

section
/-! The rolling table builders (spec/43_rolling_table_builders.md). -/

namespace Sys2Proof.Machine

/-! ### `BLDRSLOW` -/

theorem exec_bldrslow_of_free {s : State} {td ts : Slot} {y : Table} (hf : s.fault = false)
    (hs : s.slot ts = some y) (hd : s.slot td = none) :
    exec (.bldrslow td ts) s = .next (s.installTable td (rollingTable s.cfg y)) := by
  simp only [exec, execBldrslow, sourceTable_of_some hs, destinationFree_of_none hd, bind_ok]
  exact command_ok hf

/-- R120: the zero-byte loop is the byte-step folded over a run of zero bytes. -/
theorem zeroUpdates_eq_foldl (x : Table) (n : Nat) (s : Word) :
    zeroUpdates x n s = (List.replicate n 0).foldl (update x) s := by
  induction n generalizing s with
  | zero => rfl
  | succ n ih => rw [zeroUpdates_succ, ih, List.replicate_succ, List.foldl_cons]

theorem rollingTable_entry_eq_foldl (c : Cfg) (x : Table) (b : Byte) :
    (rollingTable c x).entry b = (b :: List.replicate c.w 0).foldl (update x) c.init ^^^
      (List.replicate c.w 0).foldl (update x) c.init := by
  rw [rollingTable_entry, zeroUpdates_eq_foldl, zeroUpdates_eq_foldl, List.foldl_cons]

/-- Settles O35: the command installs the rolling table, whose two loops fold `b` and `cfg.W` zero bytes, and `cfg.W`
zero bytes. -/
theorem bldrslowBuildsRollingTable : Obligations.BldrslowBuildsRollingTable := fun s _ _ y hf hs hd =>
  ⟨rollingTable s.cfg y, exec_bldrslow_of_free hf hs hd, rollingTable_entry_eq_foldl s.cfg y⟩

/-! ### `BLDRFAST` -/

/-- R121: with the source built only the check of the destination is left, which `BLDDBL` makes too; so the two
commands fault alike and build the same table. -/
theorem exec_bldrfast_eq_blddbl {s : State} {td ts : Slot} {y : Table} (hs : s.slot ts = some y) :
    exec (.bldrfast td ts) s = exec (.blddbl td (y.entry 128)) s := by
  simp only [exec, execBldrfast, sourceTable_of_some hs, bind_ok]
  rfl

/-- R102: the first loop stores the seed itself at index 128. -/
theorem doubling_entry_128 (poly seed : Word) : (doubling poly seed).entry 128 = seed := by
  rw [show (128 : Byte) = BitVec.ofNat 8 (2 ^ 7) from rfl, doubling_entry_twoPow poly seed (by decide), Nat.sub_self,
    bitRounds_zero]

/-- Settles O36: the command is `BLDDBL` of the source's entry 128, so its table is the doubling table of that seed. -/
theorem bldrfastBuildsFromEntry128 : Obligations.BldrfastBuildsFromEntry128 := fun s _ _ y hs =>
  ⟨exec_bldrfast_eq_blddbl hs, fun hf hd =>
    ⟨doubling s.cfg.poly (y.entry 128), (exec_bldrfast_eq_blddbl hs).trans (exec_blddbl_of_free _ hf hd),
      doubling_entry_128 _ _, doubling_entry_zero _ _⟩⟩

end Sys2Proof.Machine
end

section
/-! The rolling step and the rolling-window verifier (spec/44_rolling_window.md). -/

namespace Sys2Proof.Machine

/-! ### `CROLL` -/

/-- Settles O43: all three checks pass, and the byte-step of `rollStep` indexes the base table by the low byte. -/
theorem crollRollsOneByte : Obligations.CrollRollsOneByte := by
  intro s tb tr bin bout x y hf hb hr ha
  rw [← update_eq_entry_lowByte]
  exact exec_croll_of_built hf ha hb hr bin bout

/-- R130: a rolling table that is zero at the leaving byte takes nothing out. -/
theorem rollStep_of_entry_eq_zero {rolling : Table} {bout : Byte} (h : rolling.entry bout = 0) (base : Table)
    (s : Word) (bin : Byte) : rollStep base rolling s bin bout = update base s bin :=
  calc update base s bin ^^^ rolling.entry bout = update base s bin ^^^ 0 := by rw [h]
    _ = update base s bin := BitVec.xor_zero

/-- Settles O44: with both slots built the two commands are left with the same check of `AV`, and the rolling step is
the byte-step. -/
theorem crollWithZeroTableIsCupd : Obligations.CrollWithZeroTableIsCupd := by
  intro s tb tr bin bout x y hb hr hzero
  simp only [exec, execCroll, execCupd, sourceTable_of_some hb, sourceTable_of_some hr, bind_ok,
    rollStep_of_entry_eq_zero (hzero bout)]

/-! ### The loop of `ROLLVFY` -/

section Windows

variable {c : Cfg} {base rolling : Table} {m : Memory} {addr k : Nat} {s : Word}

theorem compareWindow_of_eq (h : checksum c base m (addr + k) c.w = finish c s) :
    compareWindow c base m addr k s = .ok (checksum c base m (addr + k) c.w, finish c s) :=
  if_pos h

theorem compareWindow_of_ne (h : checksum c base m (addr + k) c.w ≠ finish c s) :
    compareWindow c base m addr k s =
      .error ⟨.rollMismatch, BitVec.ofNat 32 k, checksum c base m (addr + k) c.w, finish c s⟩ :=
  if_neg h

theorem verifyWindows_zero (c : Cfg) (base rolling : Table) (m : Memory) (addr k : Nat) (s : Word) :
    verifyWindows c base rolling m addr 0 k s = compareWindow c base m addr k s :=
  rfl

/-- R131: a position with more after it hands the rolled state to the next one, unless it faults. -/
theorem verifyWindows_succ (c : Cfg) (base rolling : Table) (m : Memory) (addr left k : Nat) (s : Word) :
    verifyWindows c base rolling m addr (left + 1) k s =
      compareWindow c base m addr k s >>= fun _ => verifyWindows c base rolling m addr left (k + 1)
        (rollStep base rolling s (m.read (addr + c.w + k)) (m.read (addr + k))) := by
  rw [verifyWindows]
  cases compareWindow c base m addr k s <;> rfl

/-- A position that differs stops the loop, however many positions are left. -/
theorem verifyWindows_of_ne (left : Nat) (h : checksum c base m (addr + k) c.w ≠ finish c s) :
    verifyWindows c base rolling m addr left k s =
      .error ⟨.rollMismatch, BitVec.ofNat 32 k, checksum c base m (addr + k) c.w, finish c s⟩ := by
  cases left with
  | zero => exact compareWindow_of_ne h
  | succ left => rw [verifyWindows_succ, compareWindow_of_ne h, bind_error]

theorem incrementalState_succ (c : Cfg) (base rolling : Table) (m : Memory) (addr k : Nat) :
    incrementalState c base rolling m addr (k + 1) =
      rollStep base rolling (incrementalState c base rolling m addr k) (m.read (addr + c.w + k)) (m.read (addr + k)) :=
  rfl

/-- R131: the direct and the incremental checksum are the same at window position `k`. -/
def WindowAgrees (c : Cfg) (base rolling : Table) (m : Memory) (addr k : Nat) : Prop :=
  checksum c base m (addr + k) c.w = finish c (incrementalState c base rolling m addr k)

/-- At position 0 both paths are the fold of the first window. -/
theorem windowAgrees_zero (c : Cfg) (base rolling : Table) (m : Memory) (addr : Nat) :
    WindowAgrees c base rolling m addr 0 :=
  rfl

/-- R131: when the first `k` positions agree, the loop arrives at position `k` with the incremental state of `k`. -/
theorem verifyWindows_skip (left : Nat)
    (h : ∀ j, j < k → WindowAgrees c base rolling m addr j) :
    verifyWindows c base rolling m addr (left + k) 0 (fold c base m addr c.w) =
      verifyWindows c base rolling m addr left k (incrementalState c base rolling m addr k) := by
  induction k generalizing left with
  | zero => rfl
  | succ k ih =>
    rw [← Nat.add_assoc, Nat.add_right_comm, ih (left + 1) fun j hj => h j (Nat.lt_succ_of_lt hj),
      verifyWindows_succ, compareWindow_of_eq (h k k.lt_succ_self), bind_ok, incrementalState_succ]

end Windows

/-! ### `ROLLVFY` -/

section Rollvfy

variable {s : State} {tb tr : Slot} {addr n : Word} {x y : Table}

/-- With both slots built and the buffer inside `MEM` the verdict of the loop is left. -/
theorem exec_rollvfy_of_built (hb : s.slot tb = some x) (hr : s.slot tr = some y)
    (hin : addr.toNat + s.cfg.w + n.toNat ≤ s.cfg.memSize) :
    exec (.rollvfy tb tr addr n) s =
      command s ((verifyWindows s.cfg x y s.mem addr.toNat n.toNat 0 (fold s.cfg x s.mem addr.toNat s.cfg.w)).map
        fun p => (s.setRes0 p.1).setRes1 p.2) := by
  rw [Nat.add_assoc] at hin
  simp only [exec, execRollvfy, sourceTable_of_some hb, sourceTable_of_some hr, bufferInside_of_le hin, bind_ok]
  rfl

theorem exec_rollvfy_of_agree (hf : s.fault = false) (hb : s.slot tb = some x) (hr : s.slot tr = some y)
    (hin : addr.toNat + s.cfg.w + n.toNat ≤ s.cfg.memSize)
    (h : ∀ k, k ≤ n.toNat → WindowAgrees s.cfg x y s.mem addr.toNat k) :
    exec (.rollvfy tb tr addr n) s =
      .next ((s.setRes0 (checksum s.cfg x s.mem (addr.toNat + n.toNat) s.cfg.w)).setRes1
        (finish s.cfg (incrementalState s.cfg x y s.mem addr.toNat n.toNat))) := by
  have hskip := verifyWindows_skip 0 fun j (hj : j < n.toNat) => h j hj.le
  rw [Nat.zero_add, verifyWindows_zero, compareWindow_of_eq (h _ le_rfl)] at hskip
  rw [exec_rollvfy_of_built hb hr hin, hskip]
  exact command_ok hf

theorem exec_rollvfy_of_differ (hf : s.fault = false) (hb : s.slot tb = some x) (hr : s.slot tr = some y)
    (hin : addr.toNat + s.cfg.w + n.toNat ≤ s.cfg.memSize) {k : Nat} (hk : k ≤ n.toNat)
    (hne : ¬ WindowAgrees s.cfg x y s.mem addr.toNat k)
    (h : ∀ j, j < k → WindowAgrees s.cfg x y s.mem addr.toNat j) :
    exec (.rollvfy tb tr addr n) s =
      .next (s.enterFault ⟨.rollMismatch, BitVec.ofNat 32 k, checksum s.cfg x s.mem (addr.toNat + k) s.cfg.w,
        finish s.cfg (incrementalState s.cfg x y s.mem addr.toNat k)⟩) := by
  have hskip := verifyWindows_skip (n.toNat - k) h
  rw [Nat.sub_add_cancel hk, verifyWindows_of_ne _ hne] at hskip
  rw [exec_rollvfy_of_built hb hr hin, hskip]
  exact command_error hf

end Rollvfy

/-- Settles O45: the loop passes the positions that agree and stops at the first that differs, or after the last. -/
theorem rollvfyVerdict : Obligations.RollvfyVerdict := by
  intro s tb tr addr n x y hf hb hr hin
  refine ⟨fun h => ?_, fun k hk hne h => ?_, ?_⟩
  · exact exec_rollvfy_of_agree hf hb hr hin h
  · exact exec_rollvfy_of_differ hf hb hr hin hk hne h
  · exact windowAgrees_zero s.cfg x y s.mem addr.toNat

end Sys2Proof.Machine
end

section
/-! Table comparison, table read-out and no-operation (spec/45_compare_and_access.md). -/

namespace Sys2Proof.Machine

/-! ### `CMPTBL` -/

section Cmptbl

variable {s : State} {ta tb : Slot} {x y : Table}

theorem exec_cmptbl_of_firstDifference_none (hf : s.fault = false) (ha : s.slot ta = some x)
    (hb : s.slot tb = some y) (hd : firstDifference x y = none) : exec (.cmptbl ta tb) s = .next s := by
  simp only [exec, execCmptbl, sourceTable_of_some ha, sourceTable_of_some hb, bind_ok, hd]
  exact command_ok hf

theorem exec_cmptbl_of_firstDifference_some {i : Byte} (hf : s.fault = false) (ha : s.slot ta = some x)
    (hb : s.slot tb = some y) (hd : firstDifference x y = some i) :
    exec (.cmptbl ta tb) s = .next (s.enterFault ⟨.tableMismatch, i.zext, x.entry i, y.entry i⟩) := by
  simp only [exec, execCmptbl, sourceTable_of_some ha, sourceTable_of_some hb, bind_ok, hd]
  exact command_error hf

end Cmptbl

/-- Settles O46: the comparison finds no index when all entries agree, and else the lowest at which they differ. -/
theorem cmptblVerdict : Obligations.CmptblVerdict := by
  intro s ta tb x y hf ha hb
  refine ⟨fun hagree => ?_, fun i hne hlow => ?_⟩
  · exact exec_cmptbl_of_firstDifference_none hf ha hb (firstDifference_eq_none.2 hagree)
  · exact exec_cmptbl_of_firstDifference_some hf ha hb (firstDifference_eq_some.2 ⟨hne, hlow⟩)

/-! ### `RDTBL` -/

theorem exec_rdtbl_of_built {s : State} {ts : Slot} {x : Table} (hf : s.fault = false) (hs : s.slot ts = some x)
    (idx : Byte) : exec (.rdtbl ts idx) s = .next (s.setRes0 (x.entry idx)) := by
  simp only [exec, execRdtbl, sourceTable_of_some hs, bind_ok]
  exact command_ok hf

/-- Settles O47: with the slot built the check passes and only `RES0` is written. -/
theorem rdtblReadsEntry : Obligations.RdtblReadsEntry := fun _ _ idx _ hf hs => exec_rdtbl_of_built hf hs idx

/-! ### `NOP` -/

/-- R142, R173: with `FAULT = 1` the packet is discarded, and with `FAULT = 0` the command has no write. -/
theorem exec_nop (s : State) : exec .nop s = .next s := by
  cases hf : s.fault with
  | true => exact command_of_fault hf (.ok s)
  | false => exact command_ok hf

/-- Settles O32: no write in any state, and the packet of opcode 0 with no operand. -/
theorem nopChangesNothing : Obligations.NopChangesNothing := ⟨exec_nop, by decide⟩

end Sys2Proof.Machine
end

section
/-! The algebra of linear tables (spec/48_properties.md, R150 to R156): the doubling invariant, the entries that fix a
linear table, and which of the built tables are linear. -/

namespace Sys2Proof.Machine

/-! ### R151: linearity and the doubling invariant -/

/-- R151: the entry above a power of two is the sum of that power's entry and the entry of the rest. -/
def DoublingInvariant (x : Table) : Prop :=
  ∀ k j, k < 8 → j < 2 ^ k →
    x.entry (BitVec.ofNat 8 (2 ^ k + j)) = x.entry (BitVec.ofNat 8 (2 ^ k)) ^^^ x.entry (BitVec.ofNat 8 j)

/-- A bit above all the bits of `j` is added without a carry. -/
theorem twoPow_add_eq_xor {k j : Nat} (hj : j < 2 ^ k) : 2 ^ k + j = 2 ^ k ^^^ j := by
  refine Nat.eq_of_testBit_eq fun i => ?_
  rw [← Nat.mul_one (2 ^ k), Nat.two_pow_add_eq_or_of_lt hj, Nat.mul_one, Nat.testBit_or, Nat.testBit_xor,
    Nat.testBit_two_pow]
  by_cases hi : k = i
  · rw [← hi, Nat.testBit_lt_two_pow hj, Bool.or_false, Bool.xor_false]
  · rw [decide_eq_false hi, Bool.false_or, Bool.false_xor]

/-- A number below `2 ^ (k + 1)` lies below `2 ^ k`, or has the bit `k` above a rest. -/
theorem lt_twoPow_succ_cases {k a : Nat} (ha : a < 2 ^ (k + 1)) : a < 2 ^ k ∨ ∃ j < 2 ^ k, a = 2 ^ k + j := by
  rcases Nat.lt_or_ge a (2 ^ k) with h | h
  · exact .inl h
  · obtain ⟨j, rfl⟩ := Nat.exists_eq_add_of_le h
    exact .inr ⟨j, by omega, rfl⟩

/-- A common summand cancels. -/
theorem xor_xor_xor_cancel_left {α : Type} [XorOp α] [Zero α] [LawfulXor α] (p a b : α) :
    p ^^^ a ^^^ (p ^^^ b) = a ^^^ b := by
  rw [LawfulXor.xor_comm p a, LawfulXor.xor_assoc, xor_cancel_left]

theorem Table.Linear.doublingInvariant {x : Table} (hx : x.Linear) : DoublingInvariant x := by
  intro k j _ hj
  rw [twoPow_add_eq_xor hj, BitVec.ofNat_xor, hx.entry_xor]

theorem DoublingInvariant.entry_zero {x : Table} (hx : DoublingInvariant x) : x.entry 0 = 0 :=
  xor_left_eq_self_iff.1 (hx 0 0 (by decide) (by decide)).symm

/-- R151: the highest bit is peeled off both indices. -/
theorem DoublingInvariant.entry_xor_below {x : Table} (hx : DoublingInvariant x) {n : Nat} (hn : n ≤ 8) {a b : Nat}
    (ha : a < 2 ^ n) (hb : b < 2 ^ n) :
    x.entry (BitVec.ofNat 8 (a ^^^ b)) = x.entry (BitVec.ofNat 8 a) ^^^ x.entry (BitVec.ofNat 8 b) := by
  induction n generalizing a b with
  | zero =>
    obtain rfl := Nat.lt_one_iff.1 ha
    obtain rfl := Nat.lt_one_iff.1 hb
    rw [Nat.xor_zero, show BitVec.ofNat 8 0 = 0 from rfl, hx.entry_zero]
    rfl
  | succ n ih =>
    have ih := @ih (Nat.le_of_succ_le hn)
    have oneTop : ∀ {i j : Nat}, i < 2 ^ n → j < 2 ^ n → x.entry (BitVec.ofNat 8 ((2 ^ n + i) ^^^ j)) =
        x.entry (BitVec.ofNat 8 (2 ^ n + i)) ^^^ x.entry (BitVec.ofNat 8 j) := by
      intro i j hi hj
      rw [twoPow_add_eq_xor hi, Nat.xor_assoc, ← twoPow_add_eq_xor (Nat.xor_lt_two_pow hi hj),
        hx n _ hn (Nat.xor_lt_two_pow hi hj), ih hi hj, ← twoPow_add_eq_xor hi, hx n i hn hi, BitVec.xor_assoc]
    rcases lt_twoPow_succ_cases ha with ha | ⟨i, hi, rfl⟩ <;>
      rcases lt_twoPow_succ_cases hb with hb | ⟨j, hj, rfl⟩
    · exact ih ha hb
    · rw [Nat.xor_comm, oneTop hj ha, BitVec.xor_comm]
    · exact oneTop hi hb
    · rw [hx n i hn hi, hx n j hn hj, xor_xor_xor_cancel_left, twoPow_add_eq_xor hi, twoPow_add_eq_xor hj,
        xor_xor_xor_cancel_left, ih hi hj]

theorem DoublingInvariant.linear {x : Table} (hx : DoublingInvariant x) : x.Linear := by
  intro a b
  have h := hx.entry_xor_below le_rfl a.isLt b.isLt
  rwa [BitVec.ofNat_xor, BitVec.ofNat_toNat, BitVec.ofNat_toNat, BitVec.setWidth_eq, BitVec.setWidth_eq] at h

/-- Settles O51: the XOR of a power of two with a smaller index is their sum; and the invariant peels off the highest
bits of two indices. -/
theorem doublingInvariantIsLinearity : Obligations.DoublingInvariantIsLinearity := fun _ =>
  ⟨Table.Linear.doublingInvariant, DoublingInvariant.linear⟩

/-! ### The entries that fix a linear table -/

theorem Table.Linear.entry_zero {x : Table} (hx : x.Linear) : x.entry 0 = 0 :=
  hx.doublingInvariant.entry_zero

/-- R151: a linear table is fixed by its entries at the powers of two. -/
theorem Table.Linear.ext_twoPow {x y : Table} (hx : x.Linear) (hy : y.Linear)
    (h : ∀ k < 8, x.entry (BitVec.ofNat 8 (2 ^ k)) = y.entry (BitVec.ofNat 8 (2 ^ k))) : x = y := by
  have below : ∀ n ≤ 8, ∀ a < 2 ^ n, x.entry (BitVec.ofNat 8 a) = y.entry (BitVec.ofNat 8 a) := by
    intro n hn
    induction n with
    | zero =>
      intro a ha
      obtain rfl := Nat.lt_one_iff.1 ha
      exact hx.entry_zero.trans hy.entry_zero.symm
    | succ n ih =>
      intro a ha
      have ih := ih (Nat.le_of_succ_le hn)
      rcases lt_twoPow_succ_cases ha with ha | ⟨j, hj, rfl⟩
      · exact ih a ha
      · rw [hx.doublingInvariant n j hn hj, hy.doublingInvariant n j hn hj, h n hn, ih j hj]
  refine Table.ext_entry fun i => ?_
  have h := below 8 le_rfl i.toNat i.isLt
  rwa [BitVec.ofNat_toNat, BitVec.setWidth_eq] at h

/-! ### R150, R153: the built tables -/

theorem referenceTable_linear (poly : Word) : (referenceTable poly).Linear := by
  intro a b
  rw [referenceTable_entry, referenceTable_entry, referenceTable_entry, ← bitRounds_xor, ← BitVec.setWidth_xor]

theorem doubling_linear (poly seed : Word) : (doubling poly seed).Linear :=
  DoublingInvariant.linear fun _ _ => doubling_entry_add poly seed

theorem fastRollingTable_linear (c : Cfg) (x : Table) : (fastRollingTable c x).Linear :=
  doubling_linear c.poly (x.entry 128)

/-! ### R154, R156: runs of zero bytes, and the slow rolling table -/

/-- A zero byte that leaves the state leaves it however often it is folded. -/
theorem zeroUpdates_of_fixed {x : Table} {s : Word} (h : update x s 0 = s) (n : Nat) : zeroUpdates x n s = s := by
  induction n with
  | zero => rfl
  | succ n ih => rw [zeroUpdates_succ, h, ih]

theorem Table.Linear.zeroUpdates_xor {x : Table} (hx : x.Linear) (n : Nat) (s1 s2 : Word) :
    zeroUpdates x n (s1 ^^^ s2) = zeroUpdates x n s1 ^^^ zeroUpdates x n s2 := by
  induction n generalizing s1 s2 with
  | zero => rfl
  | succ n ih => rw [zeroUpdates_succ, zeroUpdates_succ, zeroUpdates_succ, hx.update_xor_zero, ih]

theorem update_zero_zero {x : Table} (h : x.entry 0 = 0) : update x 0 0 = 0 := by
  rw [update_of_zero, h]

theorem rollConstant_eq (c : Cfg) (x : Table) :
    rollConstant c x = zeroUpdates x c.w (update x c.init 0) ^^^ zeroUpdates x c.w c.init := rfl

/-- R156: the part of a byte and the constant. -/
theorem Table.Linear.rollingTable_entry_eq {x : Table} (hx : x.Linear) (c : Cfg) (b : Byte) :
    (rollingTable c x).entry b = zeroUpdates x c.w (x.entry b) ^^^ rollConstant c x := by
  rw [rollingTable_entry, hx.update_eq_zeroByte_xor_entry, hx.zeroUpdates_xor, rollConstant_eq]
  ac_rfl

theorem rollConstant_eq_zero_of_fixed {c : Cfg} {x : Table} (h : update x c.init 0 = c.init) :
    rollConstant c x = 0 := by
  rw [rollConstant_eq, h]
  exact BitVec.xor_self

theorem Table.Linear.rollConstant_eq_zero {x : Table} (hx : x.Linear) {c : Cfg} (h : c.init = 0) :
    rollConstant c x = 0 := by
  apply rollConstant_eq_zero_of_fixed
  rw [h, update_zero_zero hx.entry_zero]

/-- R159 (a): the linear part of the table is 0 at index 0. -/
theorem Table.Linear.rollingTable_entry_zero {x : Table} (hx : x.Linear) (c : Cfg) :
    (rollingTable c x).entry 0 = rollConstant c x := by
  rw [hx.rollingTable_entry_eq, hx.entry_zero, zeroUpdates_of_fixed (update_zero_zero hx.entry_zero)]
  exact BitVec.zero_xor

theorem Table.Linear.rollingTable_entry_of_rollConstant_eq_zero {x : Table} (hx : x.Linear) {c : Cfg}
    (hK : rollConstant c x = 0) (b : Byte) : (rollingTable c x).entry b = zeroUpdates x c.w (x.entry b) := by
  rw [hx.rollingTable_entry_eq, hK, xor_zero]

theorem Table.Linear.rollingTable_linear_iff {x : Table} (hx : x.Linear) (c : Cfg) :
    (rollingTable c x).Linear ↔ rollConstant c x = 0 := by
  constructor
  · intro h
    rw [← hx.rollingTable_entry_zero, h.entry_zero]
  · intro hK a b
    have hentry := hx.rollingTable_entry_of_rollConstant_eq_zero hK
    rw [hentry, hentry, hentry, hx.entry_xor, hx.zeroUpdates_xor]

/-- Settles O52: bit-rounds are linear, the doubling invariant is linearity, and the slow rolling table is a linear part
and a constant. -/
theorem whichTablesAreLinear : Obligations.WhichTablesAreLinear :=
  ⟨referenceTable_linear, doubling_linear, fastRollingTable_linear, fun c _ hx =>
    ⟨hx.rollingTable_entry_eq c, hx.rollConstant_eq_zero, rollConstant_eq_zero_of_fixed,
      hx.rollingTable_linear_iff c⟩⟩

/-- Settles O50: a linear table has entry 0 equal to 0; with `cfg.INIT = 0` both loops of the slow rolling table start
from 0 and stay there. -/
theorem entryZeroIsZero : Obligations.EntryZeroIsZero := by
  refine ⟨referenceTable_entry_zero, doubling_entry_zero, fun c x => (fastRollingTable_linear c x).entry_zero,
    fun c x hinit hzero => ?_⟩
  rw [rollingTable_entry, hinit, update_zero_zero hzero]
  exact BitVec.xor_self

/-! ### R155: the closed form of a fold -/

/-- R155: what the byte at offset `k` adds to the fold of `n` bytes. -/
def byteContribution (x : Table) (m : Memory) (addr n k : Nat) : Word :=
  zeroUpdates x (n - 1 - k) (x.entry (m.read (addr + k)))

theorem byteContribution_eq (x : Table) (m : Memory) (addr n k : Nat) :
    byteContribution x m addr n k = zeroUpdates x (n - 1 - k) (x.entry (m.read (addr + k))) := rfl

/-- One byte more shifts the contribution of an earlier byte by one zero byte. -/
theorem byteContribution_succ {n k : Nat} (hk : k < n) (x : Table) (m : Memory) (addr : Nat) :
    byteContribution x m addr (n + 1) k = update x (byteContribution x m addr n k) 0 := by
  rw [byteContribution_eq, byteContribution_eq, ← zeroUpdates_succ', show n + 1 - 1 - k = n - 1 - k + 1 by omega]

theorem byteContribution_last (x : Table) (m : Memory) (addr n : Nat) :
    byteContribution x m addr (n + 1) n = x.entry (m.read (addr + n)) := by
  rw [byteContribution_eq, Nat.add_sub_cancel, Nat.sub_self, zeroUpdates_zero]

theorem Table.Linear.fold_eq_contributions {x : Table} (hx : x.Linear) (c : Cfg) (m : Memory) (addr n : Nat) :
    fold c x m addr n =
      (List.range n).foldl (fun acc k => acc ^^^ byteContribution x m addr n k) (zeroUpdates x n c.init) := by
  induction n with
  | zero => rfl
  | succ n ih =>
    have hshift : (List.range n).foldl (fun acc k => acc ^^^ byteContribution x m addr (n + 1) k)
        (zeroUpdates x (n + 1) c.init) = update x (fold c x m addr n) 0 := by
      rw [ih, zeroUpdates_succ', ← List.foldl_hom (update x · 0)
        (g₂ := fun acc k => acc ^^^ update x (byteContribution x m addr n k) 0)
        fun acc k => (hx.update_xor_zero acc _).symm]
      refine List.foldl_ext _ _ _ fun acc k hk => ?_
      rw [byteContribution_succ (List.mem_range.1 hk)]
    rw [fold_succ, hx.update_eq_zeroByte_xor_entry, List.range_succ, List.foldl_append, hshift, List.foldl_cons,
      List.foldl_nil, byteContribution_last]

/-- Settles O53, by induction on the number of bytes. -/
theorem foldClosedForm : Obligations.FoldClosedForm := fun c _ m addr n hx => hx.fold_eq_contributions c m addr n

end Sys2Proof.Machine
end

section
/-! The testable properties of the tables and of rolling (spec/48_properties.md, R152 and R157 to R159). -/

namespace Sys2Proof.Machine

/-! ### R157: rolling over the slow rolling table -/

/-- R157: a change of the state before a run of bytes is, at its end, the change after as many zero bytes. -/
theorem Table.Linear.foldl_update_xor {x : Table} (hx : x.Linear) (bs : List Byte) (s d : Word) :
    bs.foldl (update x) (s ^^^ d) = bs.foldl (update x) s ^^^ zeroUpdates x bs.length d := by
  induction bs generalizing s d with
  | nil => rfl
  | cons b bs ih =>
    have hbyte : update x (s ^^^ d) b = update x s b ^^^ update x d 0 := by
      rw [← hx.update_xor, xor_zero]
    rw [List.foldl_cons, hbyte, ih, List.foldl_cons, List.length_cons, zeroUpdates_succ]

theorem fold_eq_foldl (c : Cfg) (x : Table) (m : Memory) (addr n : Nat) :
    fold c x m addr n = (m.bytes addr n).foldl (update x) c.init := rfl

/-- The fold of a window and the byte after it, its first byte folded first. -/
theorem fold_succ' (c : Cfg) (x : Table) (m : Memory) (addr n : Nat) :
    fold c x m addr (n + 1) = (m.bytes (addr + 1) n).foldl (update x) (update x c.init (m.read addr)) := by
  rw [fold_eq_foldl, Memory.bytes_succ', List.foldl_cons]

theorem rollStep_eq (base rolling : Table) (s : Word) (bin bout : Byte) :
    rollStep base rolling s bin bout = update base s bin ^^^ rolling.entry bout := rfl

/-- R157: with the byte after it, a window is the next window started from the state its first byte leaves; the slow
rolling table takes out what that state and `cfg.INIT` differ by. -/
theorem Table.Linear.rollStep_fold {x : Table} (hx : x.Linear) (c : Cfg) (m : Memory) (addr : Nat) :
    rollStep x (rollingTable c x) (fold c x m addr c.w) (m.read (addr + c.w)) (m.read addr) =
      fold c x m (addr + 1) c.w := by
  have hfirst : update x c.init (m.read addr) = c.init ^^^ (update x c.init (m.read addr) ^^^ c.init) :=
    (xor_xor_cancel_comm_assoc c.init _).symm
  have hlong : fold c x m addr (c.w + 1) = fold c x m (addr + 1) c.w ^^^ (rollingTable c x).entry (m.read addr) := by
    rw [fold_succ', hfirst, hx.foldl_update_xor, Memory.bytes_length, hx.zeroUpdates_xor, rollingTable_entry,
      ← fold_eq_foldl]
  rw [rollStep_eq, ← fold_succ, hlong, xor_cancel_right]

/-- R157: the incremental path passes through the raw states of the windows. -/
theorem Table.Linear.incrementalState_eq_fold {x : Table} (hx : x.Linear) (c : Cfg) (m : Memory) (addr k : Nat) :
    incrementalState c x (rollingTable c x) m addr k = fold c x m (addr + k) c.w := by
  induction k with
  | zero => rfl
  | succ k ih => rw [incrementalState_succ, ih, Nat.add_right_comm addr c.w k, hx.rollStep_fold, Nat.add_assoc]

/-- Settles O55: one rolling step is `CROLL`'s, and by induction `ROLLVFY` finds the two paths equal everywhere. -/
theorem rollingEquivalence : Obligations.RollingEquivalence := by
  refine ⟨fun c x m addr hx => hx.rollStep_fold c m addr, ?_, ?_⟩
  · intro s tb tr x addr hf hb hx hr ha hacc
    rw [exec_croll_of_built hf ha hb hr, hacc, hx.rollStep_fold]
    rfl
  · intro s tb tr x addr n hf hb hx hr hin
    have hpath := hx.incrementalState_eq_fold s.cfg s.mem addr.toNat
    have hagree : ∀ k, WindowAgrees s.cfg x (rollingTable s.cfg x) s.mem addr.toNat k := fun k =>
      congrArg (finish s.cfg) (hpath k).symm
    rw [exec_rollvfy_of_agree hf hb hr hin fun k _ => hagree k, ← hagree]
    rfl

/-! ### R152: the two base tables -/

theorem zext_twoPow {k : Nat} (hk : k < 8) : Byte.zext (BitVec.ofNat 8 (2 ^ k)) = BitVec.twoPow 32 k := by
  apply BitVec.eq_of_toNat_eq
  rw [BitVec.toNat_setWidth_of_le (by decide), toNat_twoPow hk, BitVec.toNat_twoPow_of_lt (by omega)]

/-- R152: the bit `k` leaves in bit-round `k + 1`, and `7 - k` bit-rounds of the polynomial remain. -/
theorem referenceTable_entry_twoPow (poly : Word) {k : Nat} (hk : k < 8) :
    (referenceTable poly).entry (BitVec.ofNat 8 (2 ^ k)) = bitRounds poly (7 - k) poly := by
  rw [referenceTable_entry, zext_twoPow hk, show 8 = (7 - k) + (k + 1) by omega, bitRounds_add,
    bitRounds_twoPow poly (by omega)]

theorem referenceTable_eq_doubling (poly : Word) : referenceTable poly = doubling poly poly := by
  refine (referenceTable_linear poly).ext_twoPow (doubling_linear poly poly) fun k hk => ?_
  rw [referenceTable_entry_twoPow poly hk, doubling_entry_twoPow poly poly hk]

theorem exec_cmptbl_of_eq {s : State} {ta tb : Slot} {x y : Table} (hf : s.fault = false) (ha : s.slot ta = some x)
    (hb : s.slot tb = some y) (h : x = y) : exec (.cmptbl ta tb) s = .next s :=
  exec_cmptbl_of_firstDifference_none hf ha hb (firstDifference_eq_none.2 fun _ => by rw [h])

/-- Settles O54: both tables are linear and agree at the powers of two; entry 1 is eight bit-rounds. -/
theorem referenceEqualsDoubling : Obligations.ReferenceEqualsDoubling := by
  have hvalue : (referenceTable 0xEDB88320).entry 1 = 0x77073096 := by
    rw [referenceTable_entry]
    decide
  exact ⟨referenceTable_eq_doubling,
    fun _ _ _ hf ha hb => exec_cmptbl_of_eq hf ha hb (referenceTable_eq_doubling _), hvalue,
    referenceTable_eq_doubling 0xEDB88320 ▸ hvalue⟩

/-! ### R158: the two rolling tables -/

/-- R154: over the reference table runs of zero bytes commute with bit-rounds. -/
theorem zeroUpdates_referenceTable_bitRounds (poly : Word) (n j : Nat) (s : Word) :
    zeroUpdates (referenceTable poly) n (bitRounds poly j s) =
      bitRounds poly j (zeroUpdates (referenceTable poly) n s) := by
  induction n generalizing s with
  | zero => rfl
  | succ n ih =>
    have hcomm : bitRounds poly 8 (bitRounds poly j s) = bitRounds poly j (bitRounds poly 8 s) := by
      rw [← bitRounds_add, Nat.add_comm, bitRounds_add]
    rw [zeroUpdates_succ, zeroUpdates_succ, update_referenceTable_zero, update_referenceTable_zero, hcomm, ih]

theorem fastRollingTable_entry_twoPow (c : Cfg) (x : Table) {k : Nat} (hk : k < 8) :
    (fastRollingTable c x).entry (BitVec.ofNat 8 (2 ^ k)) = bitRounds c.poly (7 - k) (x.entry 128) :=
  doubling_entry_twoPow c.poly (x.entry 128) hk

/-- R158: without the constant the slow rolling table is linear, and at the powers of two it is what the doubling
construction makes of its entry 128. -/
theorem fastRollingTable_rollingTable_referenceTable {c : Cfg} (hK : rollConstant c (referenceTable c.poly) = 0) :
    fastRollingTable c (rollingTable c (referenceTable c.poly)) = rollingTable c (referenceTable c.poly) := by
  have hx := referenceTable_linear c.poly
  have hentry := hx.rollingTable_entry_of_rollConstant_eq_zero hK
  refine (fastRollingTable_linear c _).ext_twoPow ((hx.rollingTable_linear_iff c).2 hK) fun k hk => ?_
  rw [fastRollingTable_entry_twoPow c _ hk, hentry, hentry, referenceTable_entry_128,
    referenceTable_entry_twoPow _ hk, zeroUpdates_referenceTable_bitRounds]

/-- Settles O56: the two base tables are one, and `cfg.INIT = 0` is a case of `K = 0`. -/
theorem slowEqualsFastRollingTable : Obligations.SlowEqualsFastRollingTable := by
  intro s tr tf x hf hbase hcond hr hfast
  obtain rfl : x = referenceTable s.cfg.poly := hbase.elim id fun h => h.trans (referenceTable_eq_doubling _).symm
  have hK : rollConstant s.cfg (referenceTable s.cfg.poly) = 0 :=
    hcond.elim (referenceTable_linear _).rollConstant_eq_zero id
  have heq := fastRollingTable_rollingTable_referenceTable hK
  exact ⟨heq, exec_cmptbl_of_eq hf hr hfast heq.symm⟩

/-! ### R159: a constant that is not 0 -/

/-- Settles O57: entry 0 of the slow table is the constant and that of the fast table is 0, so the comparison stops at
index 0. -/
theorem fastTableFailsForNonzeroConstant : Obligations.FastTableFailsForNonzeroConstant := by
  intro s tr tf x hf hx hK hr hfast
  have hslow := hx.rollingTable_entry_zero s.cfg
  have hzero := (fastRollingTable_linear s.cfg (rollingTable s.cfg x)).entry_zero
  have hdiff : firstDifference (rollingTable s.cfg x) (fastRollingTable s.cfg (rollingTable s.cfg x)) = some 0 :=
    firstDifference_eq_some.2 ⟨by rwa [hslow, hzero], fun j hj => absurd hj (BitVec.not_lt_zero)⟩
  refine ⟨hslow, fun hlin => hK ((hx.rollingTable_linear_iff s.cfg).1 hlin), ?_⟩
  rw [exec_cmptbl_of_firstDifference_some hf hr hfast hdiff, hslow, hzero]
  rfl

end Sys2Proof.Machine
end

section
/-! What a result depends on (spec/48_properties.md, R160 to R162). -/

namespace Sys2Proof.Machine

/-! ### R161: the empty buffer -/

theorem checksum_zero (c : Cfg) (x : Table) (m : Memory) (addr : Nat) : checksum c x m addr 0 = 0 :=
  BitVec.xor_self

/-- Settles O42: the empty fold is `cfg.INIT`, which is what `CINIT` starts from and `CFIN` finishes. -/
theorem emptyBufferChecksum : Obligations.EmptyBufferChecksum := by
  intro s ts addr x hf hs hb
  have hcsum : exec (.csum ts addr 0) s = .next ((s.startAcc s.cfg.init).setRes0 0) := by
    have hlen : (0 : Word).toNat = 0 := rfl
    rw [exec_csum_of_built (len := 0) hf hs hb, hlen, fold_zero, checksum_zero]
  have hfinish : finish s.cfg s.cfg.init = 0 := BitVec.xor_self
  refine ⟨hcsum, s.startAcc s.cfg.init, exec_cinit_of_unfaulted hf, ?_⟩
  rw [exec_cfin_of_valid (s := s.startAcc s.cfg.init) hf rfl, hcsum, State.startAcc_acc, State.startAcc_cfg, hfinish]

/-! ### R160: equal inputs, equal results -/

/-- Settles O58: each build installs a table given by `cfg`, the seed and the source alone. -/
theorem buildsDependOnlyOnTheirInputs : Obligations.BuildsDependOnlyOnTheirInputs := by
  intro s1 s2 d1 d2 hcfg hf1 hf2 hd1 hd2
  refine ⟨⟨_, exec_bldref_of_free hf1 hd1, ?_⟩, fun seed => ⟨_, exec_blddbl_of_free seed hf1 hd1, ?_⟩,
    fun t1 t2 y hs1 hs2 =>
      ⟨⟨_, exec_bldrslow_of_free hf1 hs1 hd1, ?_⟩, doubling s1.cfg.poly (y.entry 128), ?_, ?_⟩⟩
  · rw [hcfg]
    exact exec_bldref_of_free hf2 hd2
  · rw [hcfg]
    exact exec_blddbl_of_free seed hf2 hd2
  · rw [hcfg]
    exact exec_bldrslow_of_free hf2 hs2 hd2
  · rw [exec_bldrfast_eq_blddbl hs1]
    exact exec_blddbl_of_free _ hf1 hd1
  · rw [hcfg, exec_bldrfast_eq_blddbl hs2]
    exact exec_blddbl_of_free _ hf2 hd2

theorem Memory.bytes_congr {m1 m2 : Memory} {addr n : Nat}
    (h : ∀ k, k < n → m1.read (addr + k) = m2.read (addr + k)) : m1.bytes addr n = m2.bytes addr n :=
  List.map_congr_left fun k hk => h k (List.mem_range.1 hk)

/-- Settles O59: `ACC` and `RES0` are the fold of the bytes and its finish. -/
theorem csumDependsOnlyOnTableAndBuffer : Obligations.CsumDependsOnlyOnTableAndBuffer := by
  intro s1 s2 t1 t2 x addr len hcfg hf1 hf2 hs1 hs2 hb hbytes
  have hfold : fold s1.cfg x s1.mem addr.toNat len.toNat = fold s2.cfg x s2.mem addr.toNat len.toNat := by
    rw [fold_eq_foldl, fold_eq_foldl, hcfg, Memory.bytes_congr hbytes]
  exact ⟨_, _, exec_csum_of_built hf1 hs1 hb, exec_csum_of_built hf2 hs2 (hcfg ▸ hb), hfold,
    congrArg₂ finish hcfg hfold⟩

/-! ### R162: the faults that depend on data -/

/-- One check in two states: it passes in both, or raises the same fault in both. -/
def SameVerdict {α : Type} (r1 r2 : Except FaultReport α) : Prop :=
  (∃ a b, r1 = .ok a ∧ r2 = .ok b) ∨ ∃ f, r1 = .error f ∧ r2 = .error f

theorem SameVerdict.pass {α : Type} (a b : α) : SameVerdict (.ok a) (.ok b) := .inl ⟨a, b, rfl, rfl⟩

theorem SameVerdict.fail (α : Type) (f : FaultReport) : SameVerdict (α := α) (.error f) (.error f) :=
  .inr ⟨f, rfl, rfl⟩

/-- R162: one command in two states: the first completes, or raises a mismatch, or both raise the same fault. -/
def FaultsAlike (r1 r2 : Except FaultReport State) : Prop :=
  (∃ t, r1 = .ok t ∧ t.fault = false) ∨
    (∃ f, r1 = .error f ∧ (f.cause = .tableMismatch ∨ f.cause = .rollMismatch)) ∨
    ∃ f, r1 = .error f ∧ r2 = .error f

theorem FaultsAlike.completes {t : State} (r : Except FaultReport State) (ht : t.fault = false) :
    FaultsAlike (.ok t) r :=
  .inl ⟨t, rfl, ht⟩

theorem FaultsAlike.mismatch {f : FaultReport} (r : Except FaultReport State)
    (hf : f.cause = .tableMismatch ∨ f.cause = .rollMismatch) : FaultsAlike (.error f) r :=
  .inr (.inl ⟨f, rfl, hf⟩)

theorem FaultsAlike.same (f : FaultReport) : FaultsAlike (.error f) (.error f) :=
  .inr (.inr ⟨f, rfl, rfl⟩)

/-- A check with the same verdict hands on to what follows it, in both states or in neither. -/
theorem SameVerdict.bind {α : Type} {r1 r2 : Except FaultReport α} {k1 k2 : α → Except FaultReport State}
    (h : SameVerdict r1 r2) (hk : ∀ a b, FaultsAlike (k1 a) (k2 b)) : FaultsAlike (r1 >>= k1) (r2 >>= k2) := by
  obtain ⟨a, b, rfl, rfl⟩ | ⟨f, rfl, rfl⟩ := h
  · exact hk a b
  · exact .same f

section Checks

variable {s1 s2 : State}

/-- Two states with the same valid bit have both built the slot, or neither. -/
theorem slot_cases_of_tv_eq {t : Slot} (h : s1.tv t = s2.tv t) :
    (s1.slot t = none ∧ s2.slot t = none) ∨ ∃ x y, s1.slot t = some x ∧ s2.slot t = some y := by
  have ht : (s1.slot t).isSome = (s2.slot t).isSome := h
  cases h1 : s1.slot t with
  | none =>
    rw [h1, Option.isSome_none, eq_comm, Option.isSome_eq_false_iff, Option.isNone_iff_eq_none] at ht
    exact .inl ⟨rfl, ht⟩
  | some x =>
    rw [h1, Option.isSome_some, eq_comm, Option.isSome_iff_exists] at ht
    obtain ⟨y, h2⟩ := ht
    exact .inr ⟨x, y, rfl, h2⟩

theorem sourceTable_sameVerdict {t : Slot} (h : s1.tv t = s2.tv t) :
    SameVerdict (sourceTable s1 t) (sourceTable s2 t) := by
  rcases slot_cases_of_tv_eq h with ⟨h1, h2⟩ | ⟨x, y, h1, h2⟩
  · rw [sourceTable_of_none h1, sourceTable_of_none h2]
    exact .fail _ _
  · rw [sourceTable_of_some h1, sourceTable_of_some h2]
    exact .pass x y

theorem destinationFree_sameVerdict {t : Slot} (h : s1.tv t = s2.tv t) :
    SameVerdict (destinationFree s1 t) (destinationFree s2 t) := by
  rcases slot_cases_of_tv_eq h with ⟨h1, h2⟩ | ⟨x, y, h1, h2⟩
  · rw [destinationFree_of_none h1, destinationFree_of_none h2]
    exact .pass () ()
  · rw [destinationFree_of_some h1, destinationFree_of_some h2]
    exact .fail _ _

theorem accumulator_sameVerdict (h : s1.av = s2.av) : SameVerdict (accumulator s1) (accumulator s2) := by
  rcases accumulator_cases s1 with ⟨ha, h1⟩ | ⟨ha, h1⟩
  · rw [h1, accumulator_of_valid (h ▸ ha)]
    exact .pass _ _
  · rw [h1, accumulator_of_invalid (h ▸ ha)]
    exact .fail _ _

theorem bufferInside_sameVerdict (h : s1.cfg = s2.cfg) (a0 a1 : Word) (n : Nat) :
    SameVerdict (bufferInside s1 a0 a1 n) (bufferInside s2 a0 a1 n) := by
  rcases bufferInside_cases s1 a0 a1 n with ⟨hb, h1⟩ | ⟨hb, h1⟩
  · rw [h1, bufferInside_of_le (h ▸ hb)]
    exact .pass () ()
  · rw [h1, bufferInside_of_not_le (h ▸ hb)]
    exact .fail _ _

/-- R162: the checks read `cfg`, `AV` and the valid bits; after them every command completes or raises a mismatch. -/
theorem exec_faultsAlike (hcfg : s1.cfg = s2.cfg) (hav : s1.av = s2.av) (htv : ∀ u, s1.tv u = s2.tv u)
    (hf : s1.fault = false) (i : Instr) :
    ∃ r1 r2, exec i s1 = command s1 r1 ∧ exec i s2 = command s2 r2 ∧ FaultsAlike r1 r2 := by
  have source := fun t => sourceTable_sameVerdict (htv t)
  have free := fun t => destinationFree_sameVerdict (htv t)
  have acc := accumulator_sameVerdict hav
  have buffer := bufferInside_sameVerdict hcfg
  cases i with
  | nop => exact ⟨.ok s1, .ok s2, rfl, rfl, .completes _ hf⟩
  | bldref td | blddbl td => exact ⟨_, _, rfl, rfl, (free td).bind fun _ _ => .completes _ hf⟩
  | bldrslow td ts | bldrfast td ts =>
    exact ⟨_, _, rfl, rfl, (source ts).bind fun _ _ => (free td).bind fun _ _ => .completes _ hf⟩
  | cinit => exact ⟨.ok (s1.startAcc s1.cfg.init), .ok (s2.startAcc s2.cfg.init), rfl, rfl, .completes _ hf⟩
  | cupd ts => exact ⟨_, _, rfl, rfl, (source ts).bind fun _ _ => acc.bind fun _ _ => .completes _ hf⟩
  | cfin => exact ⟨_, _, rfl, rfl, acc.bind fun _ _ => .completes _ hf⟩
  | csum ts addr len =>
    exact ⟨_, _, rfl, rfl, (source ts).bind fun _ _ => (buffer addr len _).bind fun _ _ => .completes _ hf⟩
  | croll tb tr =>
    exact ⟨_, _, rfl, rfl, (source tb).bind fun _ _ => (source tr).bind fun _ _ => acc.bind fun _ _ =>
      .completes _ hf⟩
  | cmptbl ta tb =>
    refine ⟨_, _, rfl, rfl, (source ta).bind fun x _ => (source tb).bind fun y _ => ?_⟩
    cases firstDifference x y with
    | some i => exact .mismatch _ (.inl rfl)
    | none => exact .completes _ hf
  | rollvfy tb tr addr n =>
    refine ⟨_, _, rfl, rfl, (source tb).bind fun x _ => (source tr).bind fun y _ => ?_⟩
    rw [← hcfg]
    refine (buffer addr n _).bind fun _ _ => ?_
    cases hv : verifyWindows s1.cfg x y s1.mem addr.toNat n.toNat 0 (fold s1.cfg x s1.mem addr.toNat s1.cfg.w) with
    | ok p => exact .completes _ hf
    | error f => exact .mismatch _ (.inr (verifyWindows_error hv))
  | rdtbl ts => exact ⟨_, _, rfl, rfl, (source ts).bind fun _ _ => .completes _ hf⟩

/-- A fault that is no mismatch is entered in both states. -/
theorem FaultsAlike.enterFault {r1 r2 : Except FaultReport State} {t1 t2 : State} (h : FaultsAlike r1 r2)
    (hf1 : s1.fault = false) (hf2 : s2.fault = false) (h1 : command s1 r1 = .next t1) (h2 : command s2 r2 = .next t2)
    (ht : t1.fault = true) (htable : t1.cause ≠ .tableMismatch) (hroll : t1.cause ≠ .rollMismatch) :
    ∃ f, t1 = s1.enterFault f ∧ t2 = s2.enterFault f := by
  obtain ⟨t, rfl, hdone⟩ | ⟨f, rfl, hcause⟩ | ⟨f, rfl, rfl⟩ := h
  · obtain rfl := Host.Outcome.next.inj ((command_ok hf1).symm.trans h1)
    exact absurd (hdone.symm.trans ht) Bool.false_ne_true
  · obtain rfl := Host.Outcome.next.inj ((command_error hf1).symm.trans h1)
    exact absurd hcause (not_or.2 ⟨htable, hroll⟩)
  · obtain rfl := Host.Outcome.next.inj ((command_error hf1).symm.trans h1)
    obtain rfl := Host.Outcome.next.inj ((command_error hf2).symm.trans h2)
    exact ⟨f, rfl, rfl⟩

end Checks

/-- Settles O60: the checks of a command give the same verdicts in both states, and what follows them can raise a
mismatch only. -/
theorem onlyMismatchFaultsDependOnData : Obligations.OnlyMismatchFaultsDependOnData := by
  intro i s1 s2 t1 t2 hcfg hf1 hf2 hav htv h1 h2 ht htable hroll
  obtain ⟨r1, r2, e1, e2, halike⟩ := exec_faultsAlike hcfg hav htv hf1 i
  obtain ⟨f, rfl, rfl⟩ := halike.enterFault hf1 hf2 (e1 ▸ h1) (e2 ▸ h2) ht htable hroll
  exact ⟨rfl, rfl, rfl, rfl, rfl⟩

end Sys2Proof.Machine
end

section
/-! The faults (spec/60_exceptions.md): the precise fault (R172), the sticky stop (R173), the illegal packet (R174), and
the order of the acceptance checks (R175), in which the first check that fails decides the command. -/

namespace Sys2Proof.Machine

/-! ### R172: precise faults -/

/-- Settles O25: only fault entry sets `FAULT`; every update of a completed command leaves it at 0. -/
theorem faultsArePrecise : Obligations.FaultsArePrecise := by
  intro i s t hf h ht
  cases i, t, h using exec_elim with
  | fault _ f hc => exact ⟨hc, rfl⟩
  | _ => exact absurd (hf.symm.trans ht) Bool.false_ne_true

/-! ### R173, R174: the issue of a packet -/

/-- R173: a faulted block does not decode. -/
theorem issue_of_fault {s : State} (hf : s.fault = true) (p : Packet) : issue p s = .next s :=
  if_pos hf

theorem issue_of_decode_error {s : State} {p : Packet} {e : DecodeError} (hf : s.fault = false)
    (hd : decode p = .error e) :
    issue p s = .next (s.enterFault ⟨.illegalCommand, p.word0, p.arg0, p.arg1⟩) := by
  simp [issue, hf, hd]

/-- Settles O9: the step hands the packet to the command port, where decode rejects it. -/
theorem illegalCommandFault : Obligations.IllegalCommandFault := by
  intro s p e rest hc hf hp hd
  rw [step_of_pending hc hp]
  exact issue_of_decode_error (s := s.setPending rest) hf hd

/-- Settles O10: the outcome of each action on a faulted block; that `FAULT` stays 1 is part of
`faultedBlockIsFrozen`. -/
theorem faultedBlockDiscardsPackets : Obligations.FaultedBlockDiscardsPackets := by
  refine ⟨fun s p rest hc hf hp => ?_, fun s n rest hc _ hp => step_of_pending hc hp,
    fun s a v rest hc _ ha hp => step_writeMem_inside hc hp ha, fun s t hf hnr hstep => ?_⟩
  · rw [step_of_pending hc hp]
    exact issue_of_fault (s := s.setPending rest) hf p
  · rw [faultedBlockIsFrozen s t hf hnr hstep]
    exact hf

/-! ### R175 to R179: the acceptance checks in their order -/

section Checks

variable {s : State}

/-- R175: the first check that fails decides the command, whatever would follow it. -/
theorem command_of_check_fails {α : Type} {check : Except FaultReport α} {f : FaultReport} (hf : s.fault = false)
    (h : check = .error f) (k : α → Except FaultReport State) :
    command s (check >>= k) = .next (s.enterFault f) := by
  rw [h, bind_error, command_error hf]

/-- R175: with the source built the checks after it decide the command. -/
theorem command_after_source {t : Slot} {k : Table → Except FaultReport State}
    {outcome : Host.Outcome State Fault Refusal} (hs : s.slot t ≠ none) (hk : ∀ x, command s (k x) = outcome) :
    command s (sourceTable s t >>= k) = outcome := by
  obtain ⟨x, hx⟩ := Option.ne_none_iff_exists'.1 hs
  rw [sourceTable_of_some hx, bind_ok]
  exact hk x

end Checks

/-- Settles O27: the slot's check is the command's first, or its second after a built source. -/
theorem sourceSlotMustBeBuilt : Obligations.SourceSlotMustBeBuilt := by
  intro s t hf hs raised
  have invalid (k : Table → Except FaultReport State) : command s (sourceTable s t >>= k) = raised :=
    command_of_check_fails hf (sourceTable_of_none hs) k
  refine ⟨fun b => invalid _, fun addr len => invalid _, fun idx => invalid _, fun td => invalid _,
    fun td => invalid _, fun tr bin bout => invalid _, fun tb => invalid _, fun tr addr n => invalid _,
    fun u hu => ⟨fun bin bout => ?_, ?_, fun addr n => ?_⟩⟩
  all_goals exact command_after_source hu fun _ => invalid _

/-- Settles O28: the destination's check is the first of a base build, and follows the source's in a rolling build. -/
theorem destinationSlotMustBeFree : Obligations.DestinationSlotMustBeFree := by
  intro s t hf ht raised
  obtain ⟨x, hx⟩ := Option.ne_none_iff_exists'.1 ht
  have locked (k : Unit → Except FaultReport State) : command s (destinationFree s t >>= k) = raised :=
    command_of_check_fails hf (destinationFree_of_some hx) k
  refine ⟨locked _, fun seed => locked _, fun ts hs => ⟨?_, ?_⟩⟩
  all_goals exact command_after_source hs fun _ => locked _

/-- Settles O29: the check of `AV` follows those of the sources the command has. -/
theorem accumulatorMustBeValid : Obligations.AccumulatorMustBeValid := by
  intro s hf ha raised
  have invalid (k : Word → Except FaultReport State) : command s (accumulator s >>= k) = raised :=
    command_of_check_fails hf (accumulator_of_invalid ha) k
  refine ⟨invalid _, fun ts hs => ⟨fun b => ?_, fun tr hr bin bout => ?_⟩⟩
  · exact command_after_source hs fun _ => invalid _
  · exact command_after_source hs fun _ => command_after_source hr fun _ => invalid _

/-- Settles O30: the check of the buffer follows those of the sources; `ROLLVFY` names the length `cfg.W + arg1`. -/
theorem bufferMustLieInMemory : Obligations.BufferMustLieInMemory := by
  intro s ts addr n hf hs raised
  have outside {length : Nat} (h : addr.toNat + length > s.cfg.memSize) (k : Unit → Except FaultReport State) :
      command s (bufferInside s addr n length >>= k) = raised :=
    command_of_check_fails hf (bufferInside_of_not_le h.not_ge) k
  refine ⟨fun h => ?_, fun tr hr h => ?_⟩
  · exact command_after_source hs fun _ => outside h _
  · rw [Nat.add_assoc] at h
    exact command_after_source hs fun _ => command_after_source hr fun _ => outside h _

end Sys2Proof.Machine
end

section
/-! Reset, and the host's list of actions (spec/70_reset_and_hazards.md): what a step does with the next action, and that
a list of well-formed actions never stops the machine. -/

namespace Sys2Proof

/-- R6, R8: the ranges of `cfg.W` and `cfg.MEMSIZE`. -/
theorem Cfg.legal_iff {c : Cfg} :
    c.legal = true ↔ 1 ≤ c.w ∧ c.w ≤ 2 ^ 32 - 1 ∧ 1 ≤ c.memSize ∧ c.memSize ≤ 2 ^ 32 - 1 := by
  simp [Cfg.legal, and_assoc]

namespace Machine

/-! ### R198: the issue of a legal packet -/

theorem issue_of_decode_ok {s : State} {p : Packet} {i : Instr} (hf : s.fault = false) (hd : decode p = .ok i) :
    issue p s = exec i s := by
  simp [issue, hf, hd]

/-- Settles O8: the step hands the packet to the command port, which decodes it and runs the command. -/
theorem stepRunsIssuedCommand : Obligations.StepRunsIssuedCommand := by
  intro s p i rest hc hf hp hd
  rw [step_of_pending hc hp]
  exact issue_of_decode_ok (s := s.setPending rest) hf hd

/-! ### R190: reset -/

@[simp] theorem State.resetBlock_tv (s : State) (u : Slot) : s.resetBlock.tv u = false := by
  simp [State.tv]

/-- `STATUS` is made of the valid bits, `AV` and `FAULT`, all of which reset clears. -/
@[simp] theorem State.resetBlock_status (s : State) : s.resetBlock.status = 0 := by
  simp [State.status]

/-- Settles O12: the step is `State.resetBlock` of the state with the action taken off the list. -/
theorem resetAction : Obligations.ResetAction := by
  intro s rest hc hp
  refine ⟨(s.setPending rest).resetBlock, step_of_pending hc hp, State.resetBlock_tv _, State.resetBlock_slot _, ?_⟩
  exact ⟨rfl, rfl, rfl, rfl, rfl, rfl, rfl, rfl, rfl, State.resetBlock_status _, rfl, rfl, rfl, rfl, rfl⟩

/-! ### R199, R6, R8: no action taken -/

theorem step_of_pending_nil {s : State} (hc : s.cfg.legal = true) (hp : s.pending = []) : step s = .next s := by
  simp [step, hostStep, hc, hp]

theorem step_of_illegal_cfg {s : State} (hc : ¬ s.cfg.legal = true) : step s = .refused .illegalConfiguration :=
  if_neg hc

/-- Settles O17: the step looks at the configuration first, then at the host's list. -/
theorem stepsThatTakeNoAction : Obligations.StepsThatTakeNoAction :=
  ⟨fun _ => step_of_pending_nil, fun _ h => step_of_illegal_cfg (mt Cfg.legal_iff.1 h)⟩

/-! ### R198, R56: a well-formed list of actions -/

theorem programWf_cons {c : Cfg} {a : HostAction} {rest : List HostAction} :
    programWf c (a :: rest) = true ↔ a.wf c = true ∧ programWf c rest = true := by
  simp [programWf]

theorem programWf_tail {c : Cfg} {actions : List HostAction} (h : programWf c actions = true) :
    programWf c actions.tail = true := by
  cases actions with
  | nil => exact h
  | cons a rest => exact (programWf_cons.1 h).2

/-- The command port answers a next state for every packet, legal or not. -/
theorem issue_next (p : Packet) (s : State) : ∃ t, issue p s = .next t := by
  cases hf : s.fault with
  | true => exact ⟨s, issue_of_fault hf p⟩
  | false =>
    cases hd : decode p with
    | ok i => rw [issue_of_decode_ok hf hd]; exact everyCommandTerminates i s
    | error e => exact ⟨_, issue_of_decode_error hf hd⟩

/-- R56: only a memory access outside `MEM` has no next state. -/
theorem hostAct_next {a : HostAction} {s : State} (ha : a.wf s.cfg = true) : ∃ t, hostAct a s = .next t := by
  cases a with
  | reset => exact ⟨_, rfl⟩
  | writeMem b v => exact ⟨_, if_pos (of_decide_eq_true ha)⟩
  | readMem b => exact ⟨_, if_pos (of_decide_eq_true ha)⟩
  | issue p => exact issue_next p s
  | readReg n => exact ⟨_, rfl⟩
  | observeFault => exact ⟨_, rfl⟩

theorem step_next {s : State} (hc : s.cfg.legal = true) (hw : programWf s.cfg s.pending = true) :
    ∃ t, step s = .next t := by
  cases hp : s.pending with
  | nil => exact ⟨s, step_of_pending_nil hc hp⟩
  | cons a rest =>
    rw [hp, programWf_cons] at hw
    rw [step_of_pending hc hp]
    exact hostAct_next (s := s.setPending rest) hw.1

theorem issue_pending_eq {p : Packet} {s t : State} (h : issue p s = .next t) : t.pending = s.pending := by
  rcases issue_cases h with ⟨-, rfl⟩ | ⟨-, ⟨e, -, rfl⟩ | ⟨i, -, he⟩⟩
  · rfl
  · rfl
  · exact exec_pending_eq he

theorem hostAct_pending_eq {a : HostAction} {s t : State} (h : hostAct a s = .next t) : t.pending = s.pending := by
  rcases hostAct_cases h with ⟨-, rfl⟩ | ⟨b, v, -, -, rfl⟩ | ⟨r, -, -, rfl⟩ | ⟨p, -, hi⟩
  · rfl
  · rfl
  · rfl
  · exact issue_pending_eq hi

/-- A step takes at most the first action off the host's list and puts none on it. -/
theorem step_pending_eq_tail {s t : State} (h : step s = .next t) : t.pending = s.pending.tail := by
  obtain ⟨-, ⟨hp, rfl⟩ | ⟨a, rest, hp, ha⟩⟩ := step_cases h
  · rw [hp]; rfl
  · rw [hp]; exact hostAct_pending_eq ha

/-- Settles O21: a well-formed action has a next state; the step keeps the invariant and `cfg`, and leaves the tail of
the list. -/
theorem wellFormedProgramNeverStops : Obligations.WellFormedProgramNeverStops := by
  intro s hs hw
  obtain ⟨t, ht⟩ := step_next hs.cfgLegal hw
  refine ⟨t, ht, stepKeepsInvariant s t hs ht, ?_⟩
  rw [configurationNeverChanges s t ht, step_pending_eq_tail ht]
  exact programWf_tail hw

end Machine

end Sys2Proof
end

section
/-! The machine after power-up (spec/70_reset_and_hazards.md section 1, spec/10_state.md section 1). -/

namespace Sys2Proof

namespace Machine

/-- R190: the machine after power-up is one that has just been reset. -/
@[simp] theorem State.resetBlock_reset : State.reset.resetBlock = State.reset := rfl

@[simp] theorem State.reset_status : State.reset.status = 0 := by
  rw [← State.resetBlock_reset, State.resetBlock_status]

/-- Settles O13: no slot is built, `STATUS` is that of a machine that has been reset, and every other value is a field
of `State.reset` or of `Cfg.hw`. -/
theorem resetStateValues : Obligations.ResetStateValues :=
  ⟨State.reset_slot, rfl, rfl, rfl, rfl, rfl, rfl, rfl, rfl, rfl, State.reset_status, rfl, rfl, rfl, rfl, rfl, rfl⟩

end Machine

end Sys2Proof
end
